-- ==== Sys2Proof/Word.lean ====
section
/-! DEFINITION. The elements the block's sequences are made of (00_scope.md R17, R18). There are no machine words:
no register file, no bytes, no addresses (R24, R40). -/

namespace Sys2Proof

/-- An element of a bit string as a number (the address, a payload, a frame). The legal values are 0 and 1
(`isBit`); the model types bits as numbers so that `InvalidBitError` (R92) and the ill-formed constants of R190 can
be said at all. -/
abbrev Digit := Nat

/-- `d` is a bit: an element of {0, 1} (R18). -/
def isBit (d : Digit) : Bool := d == 0 || d == 1

/-- Every element is a bit. -/
def allBits (x : List Digit) : Bool := x.all isBit

/-- The number of 1s of a bit string (the spec's `ones`, R83). -/
def ones (x : List Digit) : Nat := x.count 1

/-- A chip: one binary symbol after line encoding (R18). Two-valued by type, so R103 needs no case. -/
abbrev Chip := BitVec 1

/-- A sample: a complex amplitude, one bit for each part (R18, R63). -/
structure Sample where
  /-- The real part, `s_re`. -/
  re : BitVec 1
  /-- The imaginary part, `s_im`. -/
  im : BitVec 1
deriving DecidableEq, Repr

/-- Carrier on at full amplitude, `(1, 0)`. -/
def Sample.on : Sample := ⟨1, 0⟩

/-- Carrier off, `(0, 0)`. -/
def Sample.off : Sample := ⟨0, 0⟩

/-- The 5 pins `op_word[4:0]` (R65). -/
abbrev OpWord := BitVec 5

/-- The 3 bits of the `CMD` field (R65). -/
abbrev CmdField := BitVec 3

end Sys2Proof
end

