-- ==== Sys2Proof/Machine/Constants.lean ====
section
/-! DEFINITION. The protocol constants of 00_scope.md section 3: the fixed ones, which no configuration may change
(R175), and the reference values of the parameters. -/

namespace Sys2Proof

/-- R7: every preamble has 38 bits. -/
def preambleLen : Nat := 38

/-- R7: 23 alternating bits that start with 1, then 15 zeros. -/
def preambleReference : List Digit :=
  [1, 0, 1, 0, 1, 0, 1, 0, 1, 0, 1, 0, 1, 0, 1, 0, 1, 0, 1, 0, 1, 0, 1] ++ List.replicate 15 0

/-- R8: the separator between address and payload. -/
def separator : List Digit := [0, 1, 0, 0, 0]

/-- R9: every payload has 22 bits. -/
def payloadLen : Nat := 22

/-- R10: the number of zero bits that end a frame. -/
def gapLen : Nat := 62

/-- R10: the gap, logical zero bits that go through the line encoder like the others (R84). -/
def gap : List Digit := List.replicate gapLen 0

/-- R13: the number of zero samples that end a buffer. -/
def padLen : Nat := 4096

/-- R13: the pad. -/
def pad : List Sample := List.replicate padLen Sample.off

/-- R14: passed by the host to the sink; the block does not use it. -/
def carrierHz : Nat := 433920000

/-- R6: the reference length of a DeviceAddress. -/
def addrLenReference : Nat := 41

/-- R11: the reference sample rate, samples per second. -/
def sampleRateReference : Nat := 2000000

/-- R11: the reference baud rate, chips per second. -/
def baudRateReference : Nat := 2500

end Sys2Proof
end

