-- ==== Sys2Proof/Config.lean ====
section
/-! DEFINITION. The configuration of an instance (00_scope.md section 3, R190) and the free values of the model.
A configuration is fixed for the life of an instance: no operation writes it (R11, R20). -/

namespace Sys2Proof

/-- A configuration as supplied, well-formed or not (R6, R7, R11, R15). The seven payloads carry the spec's names. -/
structure RawConfig where
  /-- `ADDR_LEN` (R6). -/
  addrLen : Nat
  /-- `SAMPLE_RATE` (R11). -/
  sampleRate : Nat
  /-- `BAUD_RATE` (R11). -/
  baudRate : Nat
  /-- `PREAMBLE` (R7). -/
  preamble : List Digit
  pPwrPress : List Digit
  pPwrRelease : List Digit
  pFan0Press : List Digit
  pFan0Release : List Digit
  pFan1 : List Digit
  pFan2 : List Digit
  pFan3 : List Digit
deriving DecidableEq, Repr

/-- The seven payloads (R15). -/
def RawConfig.payloads (r : RawConfig) : List (List Digit) :=
  [r.pPwrPress, r.pPwrRelease, r.pFan0Press, r.pFan0Release, r.pFan1, r.pFan2, r.pFan3]

/-- Why a configuration is not well-formed (R190), one name per condition. -/
inductive ConfigDefect where
  /-- `ADDR_LEN >= 1` fails. -/
  | addrLenZero
  /-- `len(PREAMBLE) = 38` fails. -/
  | preambleLength
  /-- A payload has another length than 22. -/
  | payloadLength
  /-- `P_PWR_PRESS != P_PWR_RELEASE` fails. -/
  | pwrPressIsRelease
  /-- An element of the preamble or of a payload is not 0 or 1. -/
  | nonBinary
deriving DecidableEq, Repr

/-- The first condition of R190 that a configuration breaks, in the rule's order. The rates are not among them. -/
def RawConfig.defect (r : RawConfig) : Option ConfigDefect :=
  if r.addrLen = 0 then some .addrLenZero
  else if r.preamble.length ≠ preambleLen then some .preambleLength
  else if r.payloads.any (fun p => p.length != payloadLen) then some .payloadLength
  else if r.pPwrPress = r.pPwrRelease then some .pwrPressIsRelease
  else if (r.preamble :: r.payloads).any (fun x => !allBits x) then some .nonBinary
  else none

/-- R190: the configuration is well-formed. -/
def RawConfig.wf (r : RawConfig) : Bool := r.defect.isNone

/-- A configuration an instance of the block exists for: R190 and its U2 ask that the type carry the
well-formedness proof, so an ill-formed configuration has no state and takes no step. -/
structure Config extends RawConfig where
  /-- R190 holds. -/
  isWf : toRawConfig.wf = true
deriving DecidableEq, Repr

/-- Accepting a supplied configuration, or refusing it by name; never padding, truncating or clamping (U2). -/
def RawConfig.check (r : RawConfig) : Except ConfigDefect Config :=
  if h : r.wf = true then .ok { toRawConfig := r, isWf := h } else .error (r.defect.getD .nonBinary)

/-- FREE VALUE (log 2): bit `i` of payload `k` of the reference instance. R15 leaves the payloads open; no body, so
no proof can see one. -/
opaque Config.openPayloadBit (k i : Nat) : Bool

/-- Payload `k` of the reference instance: 22 free bits (R15). -/
def openPayload (k : Nat) : List Digit := (List.range payloadLen).map fun i => (Config.openPayloadBit k i).toNat

/-- The complement of a bit string. -/
def complement (x : List Digit) : List Digit := x.map fun d => 1 - d

/-- The release payload of PowerToggle in the reference instance: free, but for `P_PWR_PRESS != P_PWR_RELEASE`
(R15). Every pair of distinct payloads is a possible value. -/
def openPwrRelease : List Digit := if openPayload 1 = openPayload 0 then complement (openPayload 0) else openPayload 1

end Sys2Proof
end

