-- ==== Sys2Proof/Machine/BitFramer.lean ====
section
/-! DEFINITION. BitFramer (41_bitframer.md): the logical bits of one frame. -/

namespace Sys2Proof.Machine

/-- `Frame(addr, payload)` (R80): preamble, address, separator, payload, gap. Never pads, truncates or reorders. The
payloads of a configuration have 22 bits by its well-formedness, so R82's condition holds wherever it is used. -/
def frame (c : Config) (addr payload : List Digit) : List Digit :=
  c.preamble ++ addr ++ separator ++ payload ++ gap

/-- R82, V6: a payload of another length than 22 has no frame. -/
def checkedFrame (c : Config) (addr payload : List Digit) : Option (List Digit) :=
  if payload.length = payloadLen then some (frame c addr payload) else none

/-- `FRAME_LEN = 127 + ADDR_LEN` (R16). -/
def frameLen (c : Config) : Nat := preambleLen + c.addrLen + separator.length + payloadLen + gapLen

end Sys2Proof.Machine
end

