-- ==== Sys2Proof/Syntax.lean ====
section
/-! DEFINITION. The operations of the block (30_encoding.md R65 to R70): one constructor per row of the operation
table, and the command type of 44_commandrepeater.md R110. -/

namespace Sys2Proof

/-- A Command (R110): six named values, plus the unknown case that only a binary encoding can produce. -/
inductive Command where
  | powerToggle
  | fanSpeed0
  | fanSpeed1
  | fanSpeed2
  | fanSpeed3
  | pair
  | unknown (n : CmdField)
deriving DecidableEq, Repr

/-- An operation of the block (R67, R68, R69). `BIND`, `TAKE` and the illegal words keep their `CMD` field, which is
ignored (R65), so that no bit of a word is dropped. -/
inductive Instr where
  /-- `BIND addr` (R121). -/
  | bind (cmd : CmdField) (addr : List Digit)
  /-- `ENCODE PowerToggle` (R123). -/
  | encodePwr
  /-- `ENCODE FanSpeed0` (R123). -/
  | encodeFan0
  /-- `ENCODE FanSpeed1` (R123). -/
  | encodeFan1
  /-- `ENCODE FanSpeed2` (R123). -/
  | encodeFan2
  /-- `ENCODE FanSpeed3` (R123). -/
  | encodeFan3
  /-- `ENCODE Pair` (R113). -/
  | encodePair
  /-- `ENCODE Unknown(6)` (R113). -/
  | encodeRsvd6
  /-- `ENCODE Unknown(7)` (R113). -/
  | encodeRsvd7
  /-- `TAKE` (R127). -/
  | take (cmd : CmdField)
  /-- A word with the reserved `OP = 0b11` (R149). -/
  | illegal (cmd : CmdField)
deriving DecidableEq, Repr

/-- The command an `ENCODE` carries (R68); none for the other operations. -/
def Instr.command : Instr → Option Command
  | .bind _ _ => none
  | .encodePwr => some .powerToggle
  | .encodeFan0 => some .fanSpeed0
  | .encodeFan1 => some .fanSpeed1
  | .encodeFan2 => some .fanSpeed2
  | .encodeFan3 => some .fanSpeed3
  | .encodePair => some .pair
  | .encodeRsvd6 => some (.unknown 6)
  | .encodeRsvd7 => some (.unknown 7)
  | .take _ => none
  | .illegal _ => none

end Sys2Proof
end

