-- ==== Sys2Proof/WellFormed.lean ====
section
/-! DEFINITION. Which operations are well-formed (20_memory.md R44, 93 U3): the only condition is on the operand of
`BIND`. The well-formedness of a configuration (R190) stands with its type in Config.lean. -/

namespace Sys2Proof

/-- An operand of `BIND` is a sequence of exactly `ADDR_LEN` bits (R22, R44). -/
def addressWf (addrLen : Nat) (addr : List Digit) : Bool := addr.length == addrLen && allBits addr

/-- Well-formed for a block whose addresses have `addrLen` bits. -/
def Instr.wf (addrLen : Nat) : Instr → Bool
  | .bind _ addr => addressWf addrLen addr
  | .encodePwr => true
  | .encodeFan0 => true
  | .encodeFan1 => true
  | .encodeFan2 => true
  | .encodeFan3 => true
  | .encodePair => true
  | .encodeRsvd6 => true
  | .encodeRsvd7 => true
  | .take _ => true
  | .illegal _ => true

end Sys2Proof
end

