-- ==== Sys2Proof/Decode.lean ====
section
/-! DEFINITION. The decoder and the encoder (30_encoding.md R65 to R70, 20_memory.md R43). What stands on the
operation channel is one 5-bit word and the operand bus `op_addr`, whose value is a number below `2 ^ ADDR_LEN`. -/

namespace Sys2Proof

/-- Why a transfer on the operation channel spells no operation. -/
inductive DecodeError where
  /-- `op_addr` has only `ADDR_LEN` wires and cannot carry this number (R66); asked of `BIND` only. -/
  | opAddrTooWide
deriving DecidableEq, Repr

/-- R43: the `n`-bit sequence a bus value spells, most significant bit first. Element `i` is bit `n-1-i`. -/
def bitsOfNat (n x : Nat) : List Digit := (List.range n).map fun i => (x.testBit (n - 1 - i)).toNat

/-- R43: the bus value that spells a sequence, read as a binary numeral. -/
def natOfBits (x : List Digit) : Nat := x.foldl (fun acc d => 2 * acc + d) 0

/-- `op_word[4:3]` (R65). -/
def opField (w : OpWord) : BitVec 2 := w.extractLsb' 3 2

/-- `op_word[2:0]` (R65). -/
def cmdField (w : OpWord) : CmdField := w.extractLsb' 0 3

/-- `cmd_of` (R70). -/
def cmdOf (c : CmdField) : Command :=
  if c = 0 then .powerToggle
  else if c = 1 then .fanSpeed0
  else if c = 2 then .fanSpeed1
  else if c = 3 then .fanSpeed2
  else if c = 4 then .fanSpeed3
  else if c = 5 then .pair
  else .unknown c

/-- The `ENCODE` row whose command `cmd_of` gives. -/
def encodeRow (c : CmdField) : Instr :=
  if c = 0 then .encodePwr
  else if c = 1 then .encodeFan0
  else if c = 2 then .encodeFan1
  else if c = 3 then .encodeFan2
  else if c = 4 then .encodeFan3
  else if c = 5 then .encodePair
  else if c = 6 then .encodeRsvd6
  else .encodeRsvd7

/-- R70: the total decoder. `BIND` takes its operand from `op_addr`; the other operations ignore that bus (R66). -/
def decode (addrLen : Nat) (w : OpWord) (opAddr : Nat) : Except DecodeError Instr :=
  if opField w = 0b00 then
    if opAddr < 2 ^ addrLen then .ok (.bind (cmdField w) (bitsOfNat addrLen opAddr)) else .error .opAddrTooWide
  else if opField w = 0b01 then .ok (encodeRow (cmdField w))
  else if opField w = 0b10 then .ok (.take (cmdField w))
  else .ok (.illegal (cmdField w))

/-- The word of an operation: `OP` above `CMD` (R65, R67, R68). -/
def encodeWord : Instr → OpWord
  | .bind cmd _ => 0b00#2 ++ cmd
  | .encodePwr => 0b01#2 ++ 0b000#3
  | .encodeFan0 => 0b01#2 ++ 0b001#3
  | .encodeFan1 => 0b01#2 ++ 0b010#3
  | .encodeFan2 => 0b01#2 ++ 0b011#3
  | .encodeFan3 => 0b01#2 ++ 0b100#3
  | .encodePair => 0b01#2 ++ 0b101#3
  | .encodeRsvd6 => 0b01#2 ++ 0b110#3
  | .encodeRsvd7 => 0b01#2 ++ 0b111#3
  | .take cmd => 0b10#2 ++ cmd
  | .illegal cmd => 0b11#2 ++ cmd

/-- What `op_addr` carries for an operation (R66): the packed operand of `BIND`; for the others, which ignore it, 0. -/
def encodeAddr : Instr → Nat
  | .bind _ addr => natOfBits addr
  | .encodePwr => 0
  | .encodeFan0 => 0
  | .encodeFan1 => 0
  | .encodeFan2 => 0
  | .encodeFan3 => 0
  | .encodePair => 0
  | .encodeRsvd6 => 0
  | .encodeRsvd7 => 0
  | .take _ => 0
  | .illegal _ => 0

/-- The first byte of an instruction numbered as the opcode table numbers it: it holds `op_word`. -/
def tableByte (nbits w : Nat) : Nat := w % 2 ^ nbits % 256

/-- What follows the first byte: the value on `op_addr`. -/
def tableAddr (nbits w : Nat) : Nat := w % 2 ^ nbits / 256

/-- The operation the decoder reads from the bits `w` of a table row: the first byte is `op_word` with its three
upper bits 0, the bits above it are `op_addr` (log 5). A byte that is no 5-bit word is rejected. -/
def decodeTableWord (nbits w : Nat) : Option Instr :=
  if tableByte nbits w < 32 then
    (decode addrLenReference (BitVec.ofNat 5 (tableByte nbits w)) (tableAddr nbits w)).toOption
  else none

end Sys2Proof
end

