-- ==== Sys2Proof/Machine/Reference.lean ====
section
/-! DEFINITION. The reference instance: the reference values of 00_scope.md section 3, the payloads open (R15). -/

namespace Sys2Proof

theorem openPayload_length (k : Nat) : (openPayload k).length = payloadLen := by simp [openPayload]

theorem openPayload_allBits (k : Nat) : allBits (openPayload k) = true := by
  simp only [allBits, openPayload, List.all_eq_true, List.mem_map]
  rintro d ⟨i, -, rfl⟩
  cases Config.openPayloadBit k i <;> decide

theorem complement_length (x : List Digit) : (complement x).length = x.length := by simp [complement]

theorem complement_allBits (x : List Digit) : allBits (complement x) = true := by
  simp only [allBits, complement, List.all_eq_true, List.mem_map]
  rintro d ⟨e, -, rfl⟩
  rcases e with _ | e
  · decide
  · rcases e with _ | e
    · decide
    · simp [isBit]

theorem complement_ne {x : List Digit} (h : x ≠ []) : x ≠ complement x := by
  obtain ⟨d, rest, rfl⟩ := List.exists_cons_of_ne_nil h
  intro e
  have hd : d = 1 - d := by simpa [complement] using congrArg List.head? e
  exact absurd (show @Eq Nat d (1 - d) from hd) (by omega)

theorem openPwrRelease_length : openPwrRelease.length = payloadLen := by
  unfold openPwrRelease
  split <;> simp only [complement_length, openPayload_length]

theorem openPwrRelease_allBits : allBits openPwrRelease = true := by
  unfold openPwrRelease
  split
  · exact complement_allBits _
  · exact openPayload_allBits _

theorem openPwrRelease_ne : openPayload 0 ≠ openPwrRelease := by
  unfold openPwrRelease
  split
  · refine complement_ne fun e => ?_
    have := openPayload_length 0
    simp [e, payloadLen] at this
  · exact fun e => ‹¬ _› e.symm

/-- The reference parameters (R6, R7, R11) with free payloads. -/
def rawReference : RawConfig where
  addrLen := addrLenReference
  sampleRate := sampleRateReference
  baudRate := baudRateReference
  preamble := preambleReference
  pPwrPress := openPayload 0
  pPwrRelease := openPwrRelease
  pFan0Press := openPayload 2
  pFan0Release := openPayload 3
  pFan1 := openPayload 4
  pFan2 := openPayload 5
  pFan3 := openPayload 6

theorem rawReference_wf : rawReference.wf = true := by
  have hp : preambleReference.length = preambleLen := by decide
  have hb : allBits preambleReference = true := by decide
  simp [RawConfig.wf, RawConfig.defect, RawConfig.payloads, rawReference, addrLenReference, hp, hb,
    openPayload_length, openPayload_allBits, openPwrRelease_length, openPwrRelease_allBits, openPwrRelease_ne]

/-- The reference instance's configuration. -/
def Config.reference : Config where
  toRawConfig := rawReference
  isWf := rawReference_wf

end Sys2Proof
end

