-- ==== Sys2Proof/Machine/State.lean ====
section
/-! DEFINITION. The state of the block (10_state.md R20 to R31), its responses (60_exceptions.md R141), the host's
events (70_reset_and_hazards.md R178) and the reset state. -/

namespace Sys2Proof.Machine

/-- `ST`, the session state (R21). `Encoding` is no resting state (R28) and `Faulted` is none either (R146). -/
inductive SessionState where
  | unbound
  | bound
  | ready
deriving DecidableEq, Repr

/-- The errors an operation can raise (R141). -/
inductive SessionError where
  /-- R142. -/
  | missingAddress
  /-- R143. -/
  | alreadyBound
  /-- R145. -/
  | unsupportedCommand
  /-- R144. -/
  | invalidBit
  /-- R147. -/
  | invalidRate
  /-- R148. -/
  | transmissionInProgress
  /-- R151. -/
  | noPendingTransmission
  /-- R149. -/
  | illegalOperation
deriving DecidableEq, Repr

/-- The status of an operation (R140): it completed, or one error. -/
inductive Status where
  | ok
  | error (e : SessionError)
deriving DecidableEq, Repr

/-- What an operation puts on the response channel (R62) and, for a `TAKE` that completes, on the sample channel
(R63): the whole sequence. -/
structure Response where
  status : Status
  samples : List Sample
deriving DecidableEq, Repr

/-- What the host does next (R176, R178). -/
inductive HostEvent where
  /-- A reset event (R170). -/
  | reset
  /-- A transfer on the operation channel (R61): the 5-bit word and the value on `op_addr`. -/
  | operation (opWord : OpWord) (opAddr : Nat)
  /-- A transfer on which `op_word` or `op_addr` carries no value (X), which R176 gives no meaning. -/
  | unknownTransfer
deriving DecidableEq, Repr

/-- The block stops with no fault at all: every error is a response and the block goes on (R140, R153, R178). Nobody
raises a fault; an empty type says so, and nothing can be unsafe about it. -/
inductive Fault where
deriving DecidableEq, Repr

/-- Inputs the spec gives no meaning. Each is safe: the model stops where nothing is said. -/
inductive Refusal where
  /-- Raised by `exec` for an instruction that has no meaning yet; no arm does. Safe. -/
  | notModelled (mnemonic : String)
  /-- Raised by `BIND` on an operand of another length than `ADDR_LEN`: not a well-formed operation (R44, U3). Safe. -/
  | addressLength
  /-- Raised by `BIND` on an operand with an element that is not 0 or 1: not a well-formed operation (R22, R44). Safe. -/
  | addressNotBits
  /-- Raised by `fetch` on a transfer that spells no operation: `op_addr` wider than its bus (R66). Safe. -/
  | undecodable (e : DecodeError)
  /-- Raised by `fetch` on a transfer with unknown values on its pins (R176, U14). Safe. -/
  | unknownTransfer
deriving DecidableEq, Repr

/-- The state. `(st, addr, buf)` is the architectural state (R20). `cfg`, `ops` and `rsp` are the model's own: the
parameter of the block, the host's input and the block's last output (log 1, 3, 4). -/
structure State where
  /-- The configuration, constant (R11, R190). -/
  cfg : Config
  /-- `ST` (R21). -/
  st : SessionState
  /-- `ADDR` (R22): `none` is "no value". -/
  addr : Option (List Digit)
  /-- `BUF` (R23). -/
  buf : List Sample
  /-- The host's events not yet taken, the next one first. -/
  ops : List HostEvent
  /-- What the last step put on the response and sample channels; no operation reads it. -/
  rsp : Option Response
deriving DecidableEq, Repr

/-- R31, R170: `ST = Unbound`, `ADDR` no value, `BUF = []`, no response pending. The instance is the reference one
(log 2) and the host has issued nothing (log 4). -/
def State.reset : State where
  cfg := Config.reference
  st := .unbound
  addr := none
  buf := []
  ops := []
  rsp := none

end Sys2Proof.Machine
end

