-- ==== Sys2Proof/Machine/CommandRepeater.lean ====
section
/-! DEFINITION. CommandRepeater (44_commandrepeater.md): the duplication policy, which no parameter changes (R114). -/

namespace Sys2Proof.Machine

/-- A command that `Payloads` accepts (R110, R113). -/
def supported : Command → Bool
  | .powerToggle => true
  | .fanSpeed0 => true
  | .fanSpeed1 => true
  | .fanSpeed2 => true
  | .fanSpeed3 => true
  | .pair => false
  | .unknown _ => false

/-- `Payloads(cmd)` (R111, R113). -/
def payloads (c : Config) : Command → Except SessionError (List (List Digit))
  | .powerToggle => .ok [c.pPwrPress, c.pPwrPress, c.pPwrRelease, c.pPwrRelease]
  | .fanSpeed0 => .ok [c.pFan0Press, c.pFan0Press, c.pFan0Release, c.pFan0Release]
  | .fanSpeed1 => .ok [c.pFan1, c.pFan1]
  | .fanSpeed2 => .ok [c.pFan2, c.pFan2]
  | .fanSpeed3 => .ok [c.pFan3, c.pFan3]
  | .pair => .error .unsupportedCommand
  | .unknown _ => .error .unsupportedCommand

/-- The frames of a payload list, in order (R112). -/
def framesOf (c : Config) (ps : List (List Digit)) (addr : List Digit) : List (List Digit) := ps.map (frame c addr)

/-- `Frames(cmd, addr)` (R112). -/
def frames (c : Config) (cmd : Command) (addr : List Digit) : Except SessionError (List (List Digit)) :=
  match payloads c cmd with
  | .error e => .error e
  | .ok ps => .ok (framesOf c ps addr)

/-- `FrameBits(cmd, addr)` (R112). -/
def frameBits (c : Config) (cmd : Command) (addr : List Digit) : Except SessionError (List Digit) :=
  match frames c cmd addr with
  | .error e => .error e
  | .ok fs => .ok fs.flatten

end Sys2Proof.Machine
end

