-- ==== Sys2Proof/Machine/LineEncoder.lean ====
section
/-! DEFINITION. LineEncoder (42_lineencoder.md): three chips per bit. -/

namespace Sys2Proof.Machine

/-- `CHIPS_PER_BIT` (R90). -/
def chipsPerBit : Nat := 3

/-- `LUT` (R90); an element that is not 0 or 1 raises `InvalidBitError` (R92). -/
def lut (d : Digit) : Except SessionError (List Chip) :=
  if d = 0 then .ok [1, 0, 0] else if d = 1 then .ok [1, 1, 0] else .error .invalidBit

/-- `LineEncode(bits)` (R91): the chip patterns of the bits in order, or `InvalidBitError` and no chips at all
(R92). -/
def lineEncode : List Digit → Except SessionError (List Chip)
  | [] => .ok []
  | d :: rest =>
    match lut d with
    | .error e => .error e
    | .ok pattern =>
      match lineEncode rest with
      | .error e => .error e
      | .ok chips => .ok (pattern ++ chips)

end Sys2Proof.Machine
end

