-- ==== Sys2Proof/Machine/Ops.lean ====
section
/-! DEFINITION. The named operations over the state: the writes of 10_state.md R21 to R23, raising an error
(60_exceptions.md R140), completing, the reset event (70 R170), taking the host's next event (R25, R47), and the
codes on the pins (R21, R141). -/

namespace Sys2Proof.Machine

/-- What a step of the block answers. -/
abbrev StepResult := Host.Outcome State Fault Refusal

/-- Put a response on the channels (R62, R63). -/
def State.respond (status : Status) (samples : List Sample) (s : State) : State :=
  { s with rsp := some { status := status, samples := samples } }

/-- `ADDR <- a; ST <- Bound` (R121). -/
def State.bindTo (a : List Digit) (s : State) : State := { s with st := .bound, addr := some a }

/-- `BUF <- b; ST <- Ready` (R123). -/
def State.hold (b : List Sample) (s : State) : State := { s with st := .ready, buf := b }

/-- `BUF <- []; ST <- Bound` (R127). -/
def State.release (s : State) : State := { s with st := .bound, buf := [] }

/-- The reset event (R170): no status and no response. -/
def State.clear (s : State) : State := { s with st := .unbound, addr := none, buf := [], rsp := none }

/-- One event of the host is taken; the last step's outputs are gone (R26: a status is not stored). -/
def State.await (rest : List HostEvent) (s : State) : State := { s with ops := rest, rsp := none }

/-- Taking an error (R140, R146, R153): the response carries it; no state element is written, no sample is produced,
no handler runs. There is no return operation: the next operation is taken as usual. -/
def raiseError (e : SessionError) (s : State) : StepResult := .next (s.respond (.error e) [])

/-- `return OK, samples` (R19, R140). -/
def complete (samples : List Sample) (s : State) : StepResult := .next (s.respond .ok samples)

/-- `rsp_status[3:0]` (R141). Codes 8 to 14 are never produced. -/
def Status.code : Status → BitVec 4
  | .ok => 0
  | .error .missingAddress => 1
  | .error .alreadyBound => 2
  | .error .unsupportedCommand => 3
  | .error .invalidBit => 4
  | .error .invalidRate => 5
  | .error .transmissionInProgress => 6
  | .error .noPendingTransmission => 7
  | .error .illegalOperation => 15

/-- The encoding of `ST` on the status pins (R21, R64); 2 is `Encoding`, on pins only. -/
def SessionState.code : SessionState → BitVec 2
  | .unbound => 0
  | .bound => 1
  | .ready => 3

/-- What the host's next event comes to. -/
inductive Fetched where
  /-- Nothing for an operation to do: the step ends in this state (no event, or a reset event). -/
  | settled (s : State)
  /-- An operation to run in this state. -/
  | operation (i : Instr) (s : State)
  /-- The event has no meaning. -/
  | refused (r : Refusal)
deriving DecidableEq, Repr

/-- Taking the host's next event: operations one at a time in acceptance order (R25, R47); a reset event between any
two (R170); without an event the block waits (R178). -/
def fetch (s : State) : Fetched :=
  match s.ops with
  | [] => .settled (s.await [])
  | .reset :: rest => .settled (s.await rest).clear
  | .operation w a :: rest =>
    match decode s.cfg.addrLen w a with
    | .ok i => .operation i (s.await rest)
    | .error e => .refused (.undecodable e)
  | .unknownTransfer :: _ => .refused .unknownTransfer

/-- The transfer that carries the bits `w` of a row of the opcode table (log 5). -/
def tableTransfer (nbits w : Nat) : HostEvent :=
  if tableByte nbits w < 32 then .operation (BitVec.ofNat 5 (tableByte nbits w)) (tableAddr nbits w)
  else .unknownTransfer

end Sys2Proof.Machine
end

