-- ==== Sys2Proof/Machine/SampleExpander.lean ====
section
/-! DEFINITION. SampleExpander (43_sampleexpander.md): the samples-per-symbol factor and the replication of chips. All
arithmetic is on unbounded naturals (R104). -/

namespace Sys2Proof.Machine

/-- `SamplesPerSymbol()` (R100, R101, R12): exact division, or `InvalidRateError`. -/
def samplesPerSymbol (c : Config) : Except SessionError Nat :=
  if c.baudRate = 0 then .error .invalidRate
  else if c.sampleRate % c.baudRate ≠ 0 then .error .invalidRate
  else if c.sampleRate / c.baudRate = 0 then .error .invalidRate
  else .ok (c.sampleRate / c.baudRate)

/-- `Expand(chips, S)` (R102): every chip `S` times as the real part, the imaginary part 0. -/
def expand (chips : List Chip) (S : Nat) : List Sample := chips.flatMap fun c => List.replicate S { re := c, im := 0 }

end Sys2Proof.Machine
end

