-- ==== Sys2Proof/Machine/TransmitSession.lean ====
section
/-! DEFINITION. TransmitSession (45_transmitsession.md): the meaning of every operation. Each constructor of `Instr`
has a definition of its own over the shared operations `bindAddress`, `encodeCommand` and `takeBuffer`. -/

namespace Sys2Proof.Machine

/-- `BuildBuffer(ps, addr, s)` (R124): frames, chips, samples, then the pad once. -/
def buildBuffer (c : Config) (ps : List (List Digit)) (addr : List Digit) (S : Nat) :
    Except SessionError (List Sample) :=
  match lineEncode (framesOf c ps addr).flatten with
  | .error e => .error e
  | .ok chips => .ok (expand chips S ++ pad)

/-- What `ENCODE` computes before it writes (R123 steps 1 to 5), with its errors in the order of R150. BitFramer's own
check (R81) is the one on `ADDR`. -/
def encodeBuffer (cmd : Command) (s : State) : Except SessionError (List Sample) :=
  match payloads s.cfg cmd with
  | .error e => .error e
  | .ok ps =>
    if s.st = .ready then .error .transmissionInProgress
    else if s.st = .unbound then .error .missingAddress
    else
      match s.addr with
      | none => .error .missingAddress
      | some a =>
        match samplesPerSymbol s.cfg with
        | .error e => .error e
        | .ok S => buildBuffer s.cfg ps a S

/-- `bindAddress(addr)` (R121). An operand that is not `ADDR_LEN` bits is not a well-formed operation (R44, U3). -/
def bindAddress (addr : List Digit) (s : State) : StepResult :=
  if addr.length ≠ s.cfg.addrLen then .refused .addressLength
  else if allBits addr = false then .refused .addressNotBits
  else if s.st ≠ .unbound then raiseError .alreadyBound s
  else complete [] (s.bindTo addr)

/-- `encode(command)` (R123). -/
def encodeCommand (cmd : Command) (s : State) : StepResult :=
  match encodeBuffer cmd s with
  | .error e => raiseError e s
  | .ok b => complete [] (s.hold b)

/-- `takeBuffer()` (R127): the right side reads `BUF` before it is emptied. -/
def takeBuffer (s : State) : StepResult :=
  if s.st ≠ .ready then raiseError .noPendingTransmission s else complete s.buf s.release

/-- BIND (R121); the `CMD` field is ignored (R65). -/
def execBind (_cmd : CmdField) (addr : List Digit) (s : State) : StepResult := bindAddress addr s

/-- ENCODE.PWR (R123): PowerToggle. -/
def execEncodePwr (s : State) : StepResult := encodeCommand .powerToggle s

/-- ENCODE.FAN0 (R123): FanSpeed0. -/
def execEncodeFan0 (s : State) : StepResult := encodeCommand .fanSpeed0 s

/-- ENCODE.FAN1 (R123): FanSpeed1. -/
def execEncodeFan1 (s : State) : StepResult := encodeCommand .fanSpeed1 s

/-- ENCODE.FAN2 (R123): FanSpeed2. -/
def execEncodeFan2 (s : State) : StepResult := encodeCommand .fanSpeed2 s

/-- ENCODE.FAN3 (R123): FanSpeed3. -/
def execEncodeFan3 (s : State) : StepResult := encodeCommand .fanSpeed3 s

/-- ENCODE.PAIR (R113): recognised, always `UnsupportedCommandError`. -/
def execEncodePair (s : State) : StepResult := encodeCommand .pair s

/-- ENCODE.RSVD6 (R113, R69): an unknown variant behaves exactly like Pair. -/
def execEncodeRsvd6 (s : State) : StepResult := encodeCommand (.unknown 6) s

/-- ENCODE.RSVD7 (R113, R69): an unknown variant behaves exactly like Pair. -/
def execEncodeRsvd7 (s : State) : StepResult := encodeCommand (.unknown 7) s

/-- TAKE (R127); the `CMD` field is ignored (R65). -/
def execTake (_cmd : CmdField) (s : State) : StepResult := takeBuffer s

/-- A word with the reserved `OP = 0b11` (R149, R69): status 15, nothing changes. -/
def execIllegal (_cmd : CmdField) (s : State) : StepResult := raiseError .illegalOperation s

end Sys2Proof.Machine
end

