-- ==== Sys2Proof/Machine/Dispatch.lean ====
section
/-! DEFINITION. The one dispatch: an arm for every constructor of Instr. -/

namespace Sys2Proof.Machine

def exec (i : Instr) (s : State) : Host.Outcome State Fault Refusal :=
  match i with
  | .bind cmd addr => Sys2Proof.Machine.execBind cmd addr s
  | .encodePwr => Sys2Proof.Machine.execEncodePwr s
  | .encodeFan0 => Sys2Proof.Machine.execEncodeFan0 s
  | .encodeFan1 => Sys2Proof.Machine.execEncodeFan1 s
  | .encodeFan2 => Sys2Proof.Machine.execEncodeFan2 s
  | .encodeFan3 => Sys2Proof.Machine.execEncodeFan3 s
  | .encodePair => Sys2Proof.Machine.execEncodePair s
  | .encodeRsvd6 => Sys2Proof.Machine.execEncodeRsvd6 s
  | .encodeRsvd7 => Sys2Proof.Machine.execEncodeRsvd7 s
  | .take cmd => Sys2Proof.Machine.execTake cmd s
  | .illegal cmd => Sys2Proof.Machine.execIllegal cmd s

end Sys2Proof.Machine
end

