-- ==== Sys2Proof/Machine/Step.lean ====
section
/-! DEFINITION. One step: the whole execution of the host's next operation, or one reset event (00_scope.md R5). -/

namespace Sys2Proof.Machine

/-- One step of the block. -/
def step (s : State) : Host.Outcome State Fault Refusal :=
  match fetch s with
  | .settled t => .next t
  | .operation i t => exec i t
  | .refused r => .refused r

/-- The state in which the host's next event is the transfer of the table's word (log 5). -/
def State.withFetchWord (s : State) (nbits w : Nat) : State := { s with ops := tableTransfer nbits w :: s.ops }

end Sys2Proof.Machine
end

