-- ==== Sys2Proof/Laws/PerInstr.lean ====
section
/-! SUPPORT. Statements made per instruction. TableRow: the word of an instruction has the fixed bits of its row in
the operation table (the row's mask and match), so no two rows share a word. -/

namespace Sys2Proof.Laws.TableRow

/-- The row's mask in spec/opcode_table.json. -/
def mask : Instr → OpWord
  | .bind _ _ => 0x18
  | .encodePwr => 0x1F
  | .encodeFan0 => 0x1F
  | .encodeFan1 => 0x1F
  | .encodeFan2 => 0x1F
  | .encodeFan3 => 0x1F
  | .encodePair => 0x1F
  | .encodeRsvd6 => 0x1F
  | .encodeRsvd7 => 0x1F
  | .take _ => 0x18
  | .illegal _ => 0x18

/-- The row's match in spec/opcode_table.json. -/
def fixedBits : Instr → OpWord
  | .bind _ _ => 0x00
  | .encodePwr => 0x08
  | .encodeFan0 => 0x09
  | .encodeFan1 => 0x0A
  | .encodeFan2 => 0x0B
  | .encodeFan3 => 0x0C
  | .encodePair => 0x0D
  | .encodeRsvd6 => 0x0E
  | .encodeRsvd7 => 0x0F
  | .take _ => 0x10
  | .illegal _ => 0x18

/-- The encoder writes the row's fixed bits, and the table's mask leaves the `CMD` field free where it is ignored. -/
def Statement (i : Instr) : Prop := encodeWord i &&& mask i = fixedBits i

theorem bind (cmd : CmdField) (addr : List Digit) : Statement (.bind cmd addr) := by
  simp only [Statement, encodeWord, mask, fixedBits]; revert cmd; decide

theorem encodePwr : Statement .encodePwr := by unfold Statement; decide

theorem encodeFan0 : Statement .encodeFan0 := by unfold Statement; decide

theorem encodeFan1 : Statement .encodeFan1 := by unfold Statement; decide

theorem encodeFan2 : Statement .encodeFan2 := by unfold Statement; decide

theorem encodeFan3 : Statement .encodeFan3 := by unfold Statement; decide

theorem encodePair : Statement .encodePair := by unfold Statement; decide

theorem encodeRsvd6 : Statement .encodeRsvd6 := by unfold Statement; decide

theorem encodeRsvd7 : Statement .encodeRsvd7 := by unfold Statement; decide

theorem take (cmd : CmdField) : Statement (.take cmd) := by
  simp only [Statement, encodeWord, mask, fixedBits]; revert cmd; decide

theorem illegal (cmd : CmdField) : Statement (.illegal cmd) := by
  simp only [Statement, encodeWord, mask, fixedBits]; revert cmd; decide

end Sys2Proof.Laws.TableRow
end

