-- ==== Sys2Proof/Machine/Listing.lean ====
section
/-! DEFINITION. The listing syntax (30_encoding.md R71): one operation a line, `;` starts a comment. Characters stand
in lists so that reading a line computes. -/

namespace Sys2Proof.Machine

/-- A line of a listing. -/
inductive Line where
  /-- Nothing but blanks or a comment. -/
  | blank
  /-- The reset event, which is no operation word. -/
  | reset
  /-- An operation. -/
  | operation (i : Instr)
deriving DecidableEq, Repr

/-- The quotation mark around the operand of `BIND`. -/
def quoteMark : Char := Char.ofNat 34

/-- The line up to its comment. -/
def stripComment (line : List Char) : List Char := line.takeWhile (· ≠ ';')

/-- The words of a line, split at blanks; empty words stand for repeated blanks. -/
def splitWords : List Char → List (List Char)
  | [] => [[]]
  | c :: rest =>
    if c = ' ' then [] :: splitWords rest
    else
      match splitWords rest with
      | [] => [[c]]
      | w :: ws => (c :: w) :: ws

/-- The words of a line without the empty ones. -/
def lineWords (line : List Char) : List (List Char) := (splitWords (stripComment line)).filter (· ≠ [])

/-- One bit of an address as written. -/
def readDigit (c : Char) : Option Digit := if c = '0' then some 0 else if c = '1' then some 1 else none

/-- The bits up to the closing quotation mark, which ends the word; first-transmitted bit leftmost. -/
def readQuoted : List Char → Option (List Digit)
  | [] => none
  | c :: rest =>
    if c = quoteMark then (if rest = [] then some [] else none)
    else
      match readDigit c, readQuoted rest with
      | some d, some ds => some (d :: ds)
      | _, _ => none

/-- The operand of `BIND`. -/
def readAddress : List Char → Option (List Digit)
  | [] => none
  | c :: rest => if c = quoteMark then readQuoted rest else none

/-- The operand of `ENCODE`. -/
def readCommand (w : List Char) : Option Instr :=
  if w = "PowerToggle".toList then some .encodePwr
  else if w = "FanSpeed0".toList then some .encodeFan0
  else if w = "FanSpeed1".toList then some .encodeFan1
  else if w = "FanSpeed2".toList then some .encodeFan2
  else if w = "FanSpeed3".toList then some .encodeFan3
  else if w = "Pair".toList then some .encodePair
  else none

/-- A line of one word: `TAKE`, `RESET` or a dotted mnemonic of R68. -/
def readSingle (w : List Char) : Option Line :=
  if w = "TAKE".toList then some (.operation (.take 0))
  else if w = "RESET".toList then some .reset
  else if w = "ENCODE.PWR".toList then some (.operation .encodePwr)
  else if w = "ENCODE.FAN0".toList then some (.operation .encodeFan0)
  else if w = "ENCODE.FAN1".toList then some (.operation .encodeFan1)
  else if w = "ENCODE.FAN2".toList then some (.operation .encodeFan2)
  else if w = "ENCODE.FAN3".toList then some (.operation .encodeFan3)
  else if w = "ENCODE.PAIR".toList then some (.operation .encodePair)
  else if w = "ENCODE.RSVD6".toList then some (.operation .encodeRsvd6)
  else if w = "ENCODE.RSVD7".toList then some (.operation .encodeRsvd7)
  else none

/-- A line of two words. -/
def readPair (w x : List Char) : Option Line :=
  if w = "BIND".toList then (readAddress x).map fun a => .operation (.bind 0 a)
  else if w = "ENCODE".toList then (readCommand x).map .operation
  else none

/-- Reading a line; none where it is no line of a listing. -/
def readLine (line : List Char) : Option Line :=
  match lineWords line with
  | [] => some .blank
  | [w] => readSingle w
  | [w, x] => readPair w x
  | _ => none

/-- One bit of an address, written. -/
def writeDigit (d : Digit) : Char := if d = 0 then '0' else '1'

/-- The line that stands for an operation. The reserved words have no listing, and the ignored `CMD` field is not
written. -/
def writeInstr : Instr → Option (List Char)
  | .bind _ a => some ("BIND ".toList ++ quoteMark :: (a.map writeDigit ++ [quoteMark]))
  | .encodePwr => some "ENCODE PowerToggle".toList
  | .encodeFan0 => some "ENCODE FanSpeed0".toList
  | .encodeFan1 => some "ENCODE FanSpeed1".toList
  | .encodeFan2 => some "ENCODE FanSpeed2".toList
  | .encodeFan3 => some "ENCODE FanSpeed3".toList
  | .encodePair => some "ENCODE Pair".toList
  | .encodeRsvd6 => some "ENCODE.RSVD6".toList
  | .encodeRsvd7 => some "ENCODE.RSVD7".toList
  | .take _ => some "TAKE".toList
  | .illegal _ => none

end Sys2Proof.Machine
end

