-- ==== Sys2Proof/Machine/Neighbours.lean ====
section
/-! DEFINITION. What the block has to do with its neighbours: the one call of the command trigger surface (30 R72,
60 R161), the settings the host passes to the sink (60 R160), the observations of a run (70 R178) and the signal
timing derived from the rates (70 R180). -/

namespace Sys2Proof.Machine

/-- What `requestTransmit` comes to: the status reported to the caller and the buffer handed to the sink, if any. -/
structure Transmission where
  block : State
  status : Option Status
  toSink : Option (List Sample)
deriving DecidableEq, Repr

/-- The status an operation has left on the response channel. -/
def State.status (s : State) : Option Status := s.rsp.map Response.status

/-- The second half of `requestTransmit` (R72): `TAKE`, and its samples go to the sink, whole. -/
def handOver (s : State) : Host.Outcome Transmission Fault Refusal :=
  match takeBuffer s with
  | .fault f => .fault f
  | .refused r => .refused r
  | .next t => .next { block := t, status := t.status, toSink := t.rsp.map Response.samples }

/-- `requestTransmit(command)` (R72): `ENCODE`; if its status is not `OK`, report it and stop; else hand the buffer
over. -/
def requestTransmit (cmd : Command) (s : State) : Host.Outcome Transmission Fault Refusal :=
  match encodeCommand cmd s with
  | .fault f => .fault f
  | .refused r => .refused r
  | .next t => if t.status = some .ok then handOver t else .next { block := t, status := t.status, toSink := none }

/-- What the host passes to the sink's `configure` (R160, R172): the gain is not given (U19). -/
structure SinkSettings where
  sampleRate : Nat
  centerFrequency : Nat
deriving DecidableEq, Repr

/-- The settings the block relies on (R160). -/
def sinkSettings (c : Config) : SinkSettings := { sampleRate := c.sampleRate, centerFrequency := carrierHz }

/-- How long `n` samples last on the air, in nanoseconds, if the sink clocks them at `SAMPLE_RATE` (R180). -/
def durationNs (c : Config) (n : Nat) : Nat := n * 1000000000 / c.sampleRate

end Sys2Proof.Machine
end

