-- ==== Sys2Proof/Machine/Observe.lean ====
section
/-! DEFINITION. What is observed of a run (70_reset_and_hazards.md R178): the responses, in the order of the
operations. -/

namespace Sys2Proof.Machine

/-- The responses of at most `k` steps from `s`, in order. -/
def observe : Nat → State → List Response
  | 0, _ => []
  | k + 1, s =>
    match step s with
    | .next t => t.rsp.toList ++ observe k t
    | .fault _ => []
    | .refused _ => []

end Sys2Proof.Machine
end

