-- ==== Sys2Proof/Machine/Pins.lean ====
section
/-! DEFINITION. The pin-level reading of the block (30_encoding.md R60 to R64, 10_state.md R28, 70 R170, R171): one
clock and three valid/ready channels around the transaction-level `step`. No rule of `step` rests on this file. How
many edges an operation takes is open (R179): the input `done` says when it is over (log 7). -/

namespace Sys2Proof.Machine

/-- What the block is busy with between two clock edges. -/
inductive PinPhase where
  /-- Ready for an operation: `op_ready = 1`. -/
  | idle
  /-- An operation was transferred; `op_word` and `op_addr` were sampled on that transfer (R66). -/
  | working (w : OpWord) (opAddr : Nat)
  /-- The response is offered: `rsp_valid = 1` (R62). -/
  | responding (w : OpWord) (r : Response)
  /-- The samples of a taken buffer still to be transferred, the next one first: `s_valid = 1` (R63). -/
  | streaming (next : Sample) (rest : List Sample)
deriving DecidableEq, Repr

/-- The block with its channels. -/
structure PinState where
  block : State
  phase : PinPhase
deriving DecidableEq, Repr

/-- What is sampled on a rising edge of `clk`: the input pins, and whether the operation in progress is over (the
model's own input). -/
structure PinInput where
  rst : Bool
  opValid : Bool
  opWord : OpWord
  opAddr : Nat
  rspReady : Bool
  sReady : Bool
  done : Bool
deriving DecidableEq, Repr

/-- `op_ready`: 0 from an operation's transfer until its response and, for `TAKE`, its last sample are over (R61). -/
def opReady (p : PinState) : Bool :=
  match p.phase with
  | .idle => true
  | .working _ _ => false
  | .responding _ _ => false
  | .streaming _ _ => false

/-- `rsp_valid` with `rsp_status` (R62): none where `rsp_valid = 0`. -/
def rspPins (p : PinState) : Option (BitVec 4) :=
  match p.phase with
  | .idle => none
  | .working _ _ => none
  | .responding _ r => some r.status.code
  | .streaming _ _ => none

/-- `s_valid` with the sample (`s_re`, `s_im`) and `s_last` (R63): none where `s_valid = 0`. -/
def samplePins (p : PinState) : Option (Sample × Bool) :=
  match p.phase with
  | .idle => none
  | .working _ _ => none
  | .responding _ _ => none
  | .streaming x rest => some (x, rest.isEmpty)

/-- `st_state[1:0]` (R64, R21): 2, `Encoding`, while an accepted `ENCODE` has not yet responded. -/
def statePins (p : PinState) : BitVec 2 :=
  match p.phase with
  | .idle => p.block.st.code
  | .working w _ => if opField w = 0b01 then 2 else p.block.st.code
  | .responding w _ => if opField w = 0b01 then 2 else p.block.st.code
  | .streaming _ _ => p.block.st.code

/-- What the sample channel goes on to when samples are left: the rest of them, or nothing. -/
def streamPhase : List Sample → PinPhase
  | [] => .idle
  | x :: rest => .streaming x rest

/-- One rising edge of `clk`. With `rst` sampled 1 whatever is in progress is abandoned (R170, R171). -/
def clockEdge (p : PinState) (x : PinInput) : Host.Outcome PinState Fault Refusal :=
  if x.rst then .next { block := p.block.clear, phase := .idle }
  else
    match p.phase with
    | .idle => .next (if x.opValid then { p with phase := .working x.opWord x.opAddr } else p)
    | .working w a =>
      if x.done then
        match step { p.block with ops := [.operation w a] } with
        | .next t =>
          match t.rsp with
          | some r => .next { block := t, phase := .responding w r }
          | none => .next { block := t, phase := .idle }
        | .fault f => .fault f
        | .refused r => .refused r
      else .next p
    | .responding _ r => .next (if x.rspReady then { p with phase := streamPhase r.samples } else p)
    | .streaming _ rest => .next (if x.sReady then { p with phase := streamPhase rest } else p)

/-- The transfer on the sample channel at this edge, if there is one: `s_valid` and `s_ready` both 1 (R60). -/
def sampleTransfer (p : PinState) (x : PinInput) : Option (Sample × Bool) :=
  if x.rst = false ∧ x.sReady = true then samplePins p else none

/-- The pins over a list of edges: where they end, and the transfers on the sample channel in order. -/
def runPins : PinState → List PinInput → Host.Outcome (PinState × List (Sample × Bool)) Fault Refusal
  | p, [] => .next (p, [])
  | p, x :: xs =>
    match clockEdge p x with
    | .fault f => .fault f
    | .refused r => .refused r
    | .next q =>
      match runPins q xs with
      | .fault f => .fault f
      | .refused r => .refused r
      | .next (e, out) => .next (e, (sampleTransfer p x).toList ++ out)

/-- R63: a buffer as the sample channel carries it: in index order, `s_last` on the final sample only. -/
def asStream : List Sample → List (Sample × Bool)
  | [] => []
  | x :: rest => (x, rest.isEmpty) :: asStream rest

end Sys2Proof.Machine
end

