-- ==== Sys2Proof/Safety.lean ====
section
/-! DEFINITION. The invariants of 10_state.md R30, and the conditions on the host's events under which the block
always answers (70_reset_and_hazards.md R178). -/

namespace Sys2Proof.Machine

/-- R30 item 3: what a pending buffer looks like. -/
def goodBuffer (b : List Sample) : Prop :=
  padLen ≤ b.length ∧ b.drop (b.length - padLen) = pad ∧ ∀ x ∈ b, x = Sample.off ∨ x = Sample.on

/-- R30 items 1 to 3, with R22's condition that a bound address is `ADDR_LEN` bits. Items 4 and 5 speak of two states
and are statements of their own. -/
structure State.Inv (s : State) : Prop where
  unbound_iff : s.st = .unbound ↔ s.addr = none
  ready_iff : s.st = .ready ↔ s.buf ≠ []
  buf_good : s.st = .ready → goodBuffer s.buf
  addr_wf : ∀ a, s.addr = some a → addressWf s.cfg.addrLen a = true

/-- The event is one the spec gives a meaning: a reset, or a transfer whose `op_addr` fits its bus (R66, R176). -/
def eventWf (addrLen : Nat) : HostEvent → Bool
  | .reset => true
  | .operation _ a => a < 2 ^ addrLen
  | .unknownTransfer => false

end Sys2Proof.Machine
end

