-- ==== Sys2Proof/Certificates/Slice0/Obligations.lean ====
section
/-! DEFINITION. The statements for the provers. Each docstring names the rule of spec/ it formalises. The numbers of
words, states and statuses are decisions of the spec itself (D3, D6, D12, D17); statements about them say so. -/

open Sys2Proof Sys2Proof.Machine

/-! ### Encoding -/

/-- For every well-formed operation, decoding its word and bus value gives it back: no bit of an encoding is dropped
(30_encoding.md section 2; the numbers are the spec's decision D12). -/
def Obligations.DecodeOfEncodeGivesTheOperation : Prop :=
  ∀ (n : Nat) (i : Instr), i.wf n = true →
    encodeAddr i < 2 ^ n ∧ decode n (encodeWord i) (encodeAddr i) = .ok i

/-- What the decoder accepts is well-formed and encodes to the same word, and for `BIND` to the same bus value
(30_encoding.md section 2, decisions D6 and D12). -/
def Obligations.EncodeOfDecodeGivesTheWord : Prop :=
  ∀ (n : Nat) (w : OpWord) (a : Nat) (i : Instr), decode n w a = .ok i →
    i.wf n = true ∧ encodeWord i = w ∧ (opField w = 0 → encodeAddr i = a)

/-- Every one of the 32 words is classified, as the decoding table of 95_test_vectors.md section 8 lists them
(30_encoding.md section 3, decision D12). -/
def Obligations.EveryWordDecodesAsListed : Prop :=
  ∀ (n : Nat) (w : OpWord) (a : Nat), a < 2 ^ n →
    decode n w a = .ok
      (if w.toNat < 0x08 then .bind (cmdField w) (bitsOfNat n a)
       else if w = 0x08 then .encodePwr
       else if w = 0x09 then .encodeFan0
       else if w = 0x0A then .encodeFan1
       else if w = 0x0B then .encodeFan2
       else if w = 0x0C then .encodeFan3
       else if w = 0x0D then .encodePair
       else if w = 0x0E then .encodeRsvd6
       else if w = 0x0F then .encodeRsvd7
       else if w.toNat < 0x18 then .take (cmdField w)
       else .illegal (cmdField w))

/-- The operand of `BIND`: element `i` is bit `ADDR_LEN - 1 - i` of `op_addr`; the other operations ignore the bus
(20_memory.md section 2 and 30_encoding.md section 2, decision D6). A number the bus cannot carry is rejected (log 5). -/
def Obligations.BindOperandIsUnpackedFromTheBus : Prop :=
  ∀ (n : Nat) (w : OpWord) (a : Nat),
    (opField w = 0 → a < 2 ^ n → ∃ x, decode n w a = .ok (.bind (cmdField w) x) ∧ x.length = n ∧
      ∀ i < n, x[i]? = some (a.testBit (n - 1 - i)).toNat) ∧
    (opField w = 0 → 2 ^ n ≤ a → decode n w a = .error .opAddrTooWide) ∧
    (opField w ≠ 0 → ∀ b, decode n w b = decode n w a)

/-- Words written out from the encoding tables decode to the operations they stand for (30_encoding.md section 2,
95_test_vectors.md section 8; decision D12): a sanity statement. -/
def Obligations.SampleWordsDecode : Prop :=
  decode 3 0b00000 0b110 = .ok (.bind 0 [1, 1, 0]) ∧
  decode 41 0b01000 0 = .ok .encodePwr ∧
  decode 41 0b01011 0 = .ok .encodeFan2 ∧
  decode 41 0b01101 0 = .ok .encodePair ∧
  decode 41 0b10111 5 = .ok (.take 7) ∧
  decode 41 0b11000 0 = .ok (.illegal 0)

/-- The word of every operation carries its row's fixed bits (spec/opcode_table.json, mask and match). -/
def Obligations.EveryOperationHasItsTableRow : Prop :=
  ∀ i : Instr, Sys2Proof.Laws.TableRow.Statement i

/-! ### The stages -/

/-- R80: a frame is preamble, address, separator, payload and 62 zeros, in that order; the example of 168 bits with 54
ones. -/
def Obligations.FrameIsItsFiveFields : Prop :=
  (∀ (c : Config) (a p : List Digit),
    frame c a p = c.preamble ++ a ++ [0, 1, 0, 0, 0] ++ p ++ List.replicate 62 0) ∧
  ∀ c : Config, c.preamble = preambleReference →
    (frame c (List.replicate 41 1) (List.replicate 22 0)).length = 168 ∧
    ones (frame c (List.replicate 41 1) (List.replicate 22 0)) = 54

/-- 41_bitframer.md section 3 (R83, the spec's derivation): where each field stands in a frame, the constant length
`127 + ADDR_LEN`, and the number of 1 bits. -/
def Obligations.FrameFieldPositions : Prop :=
  ∀ (c : Config) (a p : List Digit), a.length = c.addrLen → p.length = 22 →
    (frame c a p).length = 127 + c.addrLen ∧
    (∀ j < 38, (frame c a p)[j]? = c.preamble[j]?) ∧
    (∀ j < c.addrLen, (frame c a p)[38 + j]? = a[j]?) ∧
    (∀ j < 5, (frame c a p)[38 + c.addrLen + j]? = some (if j = 1 then 1 else 0)) ∧
    (∀ j < 22, (frame c a p)[43 + c.addrLen + j]? = p[j]?) ∧
    (∀ j < 62, (frame c a p)[65 + c.addrLen + j]? = some 0) ∧
    (c.preamble = preambleReference →
      (∀ j < 23, (frame c a p)[j]? = some (if j % 2 = 0 then 1 else 0)) ∧
      (∀ j < 38, 23 ≤ j → (frame c a p)[j]? = some 0) ∧
      ones (frame c a p) = 12 + ones a + 1 + ones p)

/-- R82: a payload of another length than 22 has no frame, never a padded or truncated one; no payload a command
selects has another length. -/
def Obligations.OnlyWholePayloadsAreFramed : Prop :=
  (∀ (c : Config) (a p : List Digit), p.length ≠ 22 → checkedFrame c a p = none) ∧
  ∀ (c : Config) (cmd : Command) (ps : List (List Digit)) (a : List Digit), payloads c cmd = .ok ps →
    ∀ p ∈ ps, checkedFrame c a p = some (frame c a p)

/-- R91: element `3j + c` of the chip stream is element `c` of the chip pattern of bit `j`; three chips per bit; the
empty input; the separator's chips. -/
def Obligations.LineEncodeFollowsTheLookUpTable : Prop :=
  (∀ bits : List Digit, allBits bits = true → ∃ chips : List Chip, lineEncode bits = .ok chips ∧
    chips.length = 3 * bits.length ∧
    ∀ j c, c < 3 →
      chips[3 * j + c]? = bits[j]?.bind fun b => (if b = 0 then [1, 0, 0] else [1, 1, 0] : List Chip)[c]?) ∧
  lineEncode [] = .ok [] ∧
  lineEncode [0, 1, 0, 0, 0] = .ok [1, 0, 0, 1, 1, 0, 1, 0, 0, 1, 0, 0, 1, 0, 0]

/-- 42_lineencoder.md section 4 (R93, the spec's derivation): length, concatenation, counts, injectivity, and no run
of three 1s or three 0s. -/
def Obligations.LineEncodeLaws : Prop :=
  ∀ (x y : List Digit) (u v : List Chip), lineEncode x = .ok u → lineEncode y = .ok v →
    u.length = 3 * x.length ∧
    lineEncode (x ++ y) = .ok (u ++ v) ∧
    u.count 1 = x.length + ones x ∧
    u.count 0 + ones x = 2 * x.length ∧
    (u = v → x = y) ∧
    (∀ j < x.length, u[3 * j + 1]? = x[j]?.map (BitVec.ofNat 1)) ∧
    ¬ [1, 1, 1] <:+: u ∧ ¬ [0, 0, 0] <:+: u

/-- 42_lineencoder.md section 3 (R92): `LineEncode` raises exactly `InvalidBitError`, exactly on an element that is not
0 or 1; and on the frames of the block, whose address is made of bits, it raises nothing (the spec's derivation). -/
def Obligations.InvalidBitExactlyOnNonBinaryInput : Prop :=
  (∀ (bits : List Digit) (e : SessionError),
    lineEncode bits = .error e ↔ e = .invalidBit ∧ ∃ d ∈ bits, d ≠ 0 ∧ d ≠ 1) ∧
  ∀ (c : Config) (cmd : Command) (ps : List (List Digit)) (a : List Digit), payloads c cmd = .ok ps →
    allBits a = true → ∃ chips, lineEncode (framesOf c ps a).flatten = .ok chips

/-- 43_sampleexpander.md section 1 (R100; that zero rates are errors too is decision D13): `S` is the exact quotient,
at least 1; otherwise `InvalidRateError`; 800 in the reference configuration. -/
def Obligations.SamplesPerSymbolIsTheExactQuotient : Prop :=
  (∀ (c : Config) (S : Nat),
    samplesPerSymbol c = .ok S ↔ 1 ≤ S ∧ 1 ≤ c.baudRate ∧ c.sampleRate = S * c.baudRate) ∧
  (∀ (c : Config) (e : SessionError), samplesPerSymbol c = .error e → e = .invalidRate) ∧
  samplesPerSymbol Config.reference = .ok 800

/-- R102: element `m * S + r` of the samples is `(chips[m], 0)`; the corner cases and the example. -/
def Obligations.ExpandReplicatesEveryChip : Prop :=
  (∀ (chips : List Chip) (S : Nat), 1 ≤ S → (expand chips S).length = S * chips.length ∧
    ∀ m r, r < S → (expand chips S)[S * m + r]? = chips[m]?.map fun c => { re := c, im := 0 }) ∧
  (∀ S, expand [] S = []) ∧
  (∀ x : List Chip, expand x 1 = x.map fun c => { re := c, im := 0 }) ∧
  expand [1, 1, 0] 2 = [⟨1, 0⟩, ⟨1, 0⟩, ⟨1, 0⟩, ⟨1, 0⟩, ⟨0, 0⟩, ⟨0, 0⟩]

/-- 43_sampleexpander.md section 4 (R105, the spec's derivation): length, concatenation, the number of samples on, only
on and off samples, and the waveform of each bit. -/
def Obligations.ExpandLaws : Prop :=
  ∀ (x y : List Chip) (S : Nat), 1 ≤ S →
    (expand x S).length = S * x.length ∧
    expand (x ++ y) S = expand x S ++ expand y S ∧
    (expand x S).count Sample.on = S * x.count 1 ∧
    (∀ z ∈ expand x S, z = Sample.off ∨ z = Sample.on) ∧
    (lineEncode [0]).map (expand · S) = .ok (List.replicate S Sample.on ++ List.replicate (2 * S) Sample.off) ∧
    (lineEncode [1]).map (expand · S) = .ok (List.replicate (2 * S) Sample.on ++ List.replicate S Sample.off)

/-- R111: the payload list of every command, and the commands that have none. -/
def Obligations.PayloadPolicy : Prop :=
  ∀ c : Config,
    payloads c .powerToggle = .ok [c.pPwrPress, c.pPwrPress, c.pPwrRelease, c.pPwrRelease] ∧
    payloads c .fanSpeed0 = .ok [c.pFan0Press, c.pFan0Press, c.pFan0Release, c.pFan0Release] ∧
    payloads c .fanSpeed1 = .ok [c.pFan1, c.pFan1] ∧
    payloads c .fanSpeed2 = .ok [c.pFan2, c.pFan2] ∧
    payloads c .fanSpeed3 = .ok [c.pFan3, c.pFan3] ∧
    payloads c .pair = .error .unsupportedCommand ∧
    ∀ n, payloads c (.unknown n) = .error .unsupportedCommand

/-- 44_commandrepeater.md sections 2 and 3: PowerToggle makes four frames, press, press, release, release, each
repeated frame equal to the one before it, and press and release frames differ in the payload field only. -/
def Obligations.PowerToggleFramesRepeatAndDiffer : Prop :=
  ∀ (c : Config) (a : List Digit), a.length = c.addrLen →
    ∃ press release : List Digit, frames c .powerToggle a = .ok [press, press, release, release] ∧
      frameBits c .powerToggle a = .ok (press ++ press ++ release ++ release) ∧
      press ≠ release ∧
      ∀ j, (j < 43 + c.addrLen ∨ 65 + c.addrLen ≤ j) → press[j]? = release[j]?

/-- 20_memory.md section 1 (R41, the spec's derivation): after an `ENCODE` that completes, sample `n` of `BUF` is chip
`c` of bit `j` of frame `k`, and the last 4096 samples are the pad; there are no other indices. -/
def Obligations.BufferLayout : Prop :=
  ∀ (i : Instr) (cmd : Command) (s t : State) (a : List Digit) (ps : List (List Digit)) (S : Nat),
    i.command = some cmd → s.addr = some a → addressWf s.cfg.addrLen a = true →
    payloads s.cfg cmd = .ok ps → samplesPerSymbol s.cfg = .ok S →
    exec i s = .next t → t.rsp = some { status := .ok, samples := [] } →
    t.buf.length = ps.length * 3 * (127 + s.cfg.addrLen) * S + 4096 ∧
    (∀ n < ps.length * 3 * (127 + s.cfg.addrLen) * S,
      t.buf[n]? =
        ((ps[n / (3 * (127 + s.cfg.addrLen) * S)]?.bind
          fun p => (frame s.cfg a p)[n % (3 * (127 + s.cfg.addrLen) * S) / (3 * S)]?).bind
            fun b => ([1, BitVec.ofNat 1 b, 0] : List Chip)[n % (3 * S) / S]?).map fun ch => { re := ch, im := 0 }) ∧
    ∀ n < 4096, t.buf[ps.length * 3 * (127 + s.cfg.addrLen) * S + n]? = some { re := 0, im := 0 }

/-- 45_transmitsession.md section 3 (R125, the spec's derivation): the length of the buffer and the number of its
samples that are on. -/
def Obligations.BufferLengthAndOnSamples : Prop :=
  ∀ (i : Instr) (cmd : Command) (s t : State) (a : List Digit) (ps : List (List Digit)) (S : Nat),
    i.command = some cmd → s.addr = some a → addressWf s.cfg.addrLen a = true → s.cfg.preamble = preambleReference →
    payloads s.cfg cmd = .ok ps → samplesPerSymbol s.cfg = .ok S →
    exec i s = .next t → t.rsp = some { status := .ok, samples := [] } →
    t.buf.length = ps.length * 3 * (127 + s.cfg.addrLen) * S + 4096 ∧
    t.buf.count Sample.on =
      S * (ps.length * (127 + s.cfg.addrLen) + (ps.map fun p => 13 + ones a + ones p).sum)

/-- 45_transmitsession.md section 3 (R124's derivation): the last zero run of a buffer is the pad and the two zero chips
before it, `4096 + 2S` samples, after `S` samples on. -/
def Obligations.FinalZeroRun : Prop :=
  ∀ (i : Instr) (cmd : Command) (s t : State) (a : List Digit) (S : Nat),
    i.command = some cmd → s.addr = some a → addressWf s.cfg.addrLen a = true →
    samplesPerSymbol s.cfg = .ok S →
    exec i s = .next t → t.rsp = some { status := .ok, samples := [] } →
    ∃ body, t.buf = body ++ List.replicate S Sample.on ++ List.replicate (4096 + 2 * S) Sample.off

/-- 45_transmitsession.md section 3 and 95_test_vectors.md S9, V44: with 41-bit addresses and 800 samples per symbol
the buffers have 810 496 and 1 616 896 samples. -/
def Obligations.ReferenceBufferLengths : Prop :=
  ∀ (s : State) (a : List Digit), s.st = .bound → s.addr = some a → addressWf 41 a = true →
    s.cfg.addrLen = 41 → samplesPerSymbol s.cfg = .ok 800 →
    (∀ i ∈ [Instr.encodeFan1, .encodeFan2, .encodeFan3], ∃ t, exec i s = .next t ∧ t.buf.length = 810496) ∧
    ∀ i ∈ [Instr.encodePwr, .encodeFan0], ∃ t, exec i s = .next t ∧ t.buf.length = 1616896

/-- 00_scope.md section 3 (R190, decision D19): a configuration is accepted, unchanged, exactly when the five conditions
hold; the rates are not among them. -/
def Obligations.ConfigurationCheck : Prop :=
  ∀ r : RawConfig,
    (1 ≤ r.addrLen ∧ r.preamble.length = 38 ∧ (∀ p ∈ r.payloads, p.length = 22) ∧ r.pPwrPress ≠ r.pPwrRelease ∧
      (∀ x ∈ r.preamble :: r.payloads, ∀ d ∈ x, d = 0 ∨ d = 1)) ↔
    ∃ c : Config, r.check = .ok c ∧ c.toRawConfig = r

/-- 00_scope.md section 3 (R7, decision D1, and the reference values of R6 and R11): the reference instance. -/
def Obligations.ReferenceInstance : Prop :=
  Config.reference.addrLen = 41 ∧ Config.reference.sampleRate = 2000000 ∧ Config.reference.baudRate = 2500 ∧
  Config.reference.preamble =
    [1, 0, 1, 0, 1, 0, 1, 0, 1, 0, 1, 0, 1, 0, 1, 0, 1, 0, 1, 0, 1, 0, 1,
     0, 0, 0, 0, 0, 0, 0, 0, 0, 0, 0, 0, 0, 0, 0] ∧
  sinkSettings Config.reference = { sampleRate := 2000000, centerFrequency := 433920000 } ∧
  durationNs Config.reference 800 = 400000 ∧ durationNs Config.reference 403200 = 201600000

/-- 60_exceptions.md section 1 (R141, decision D17): the status codes; no two statuses share one, and 8 to 14 are never
produced. -/
def Obligations.StatusCodes : Prop :=
  Status.code .ok = 0 ∧ Status.code (.error .missingAddress) = 1 ∧ Status.code (.error .alreadyBound) = 2 ∧
  Status.code (.error .unsupportedCommand) = 3 ∧ Status.code (.error .invalidBit) = 4 ∧
  Status.code (.error .invalidRate) = 5 ∧ Status.code (.error .transmissionInProgress) = 6 ∧
  Status.code (.error .noPendingTransmission) = 7 ∧ Status.code (.error .illegalOperation) = 15 ∧
  (∀ x y : Status, x.code = y.code → x = y) ∧
  ∀ x : Status, x.code.toNat < 8 ∨ x.code.toNat = 15

/-! ### The operations -/

/-- R121: `BIND` of `ADDR_LEN` bits in `Unbound` writes the address, goes to `Bound` and answers `OK`; in `Bound` and
`Ready` it raises `AlreadyBoundError` (code 2) and keeps the old address; an operand of another length is not a
well-formed operation (refused, U3). -/
def Obligations.BindWritesTheAddressOnce : Prop :=
  Status.code (.error .alreadyBound) = 2 ∧
  ∀ (c : CmdField) (a : List Digit) (s : State),
    (addressWf s.cfg.addrLen a = true → s.st = .unbound → exec (.bind c a) s =
      .next { s with st := .bound, addr := some a, rsp := some { status := .ok, samples := [] } }) ∧
    (addressWf s.cfg.addrLen a = true → s.st ≠ .unbound → exec (.bind c a) s =
      .next { s with rsp := some { status := .error .alreadyBound, samples := [] } }) ∧
    (a.length ≠ s.cfg.addrLen → exec (.bind c a) s = .refused .addressLength)

/-- 20_memory.md section 3 (R44, U3): a `BIND` operand of another length is refused, not padded; so is one that is not
made of bits (log 6). -/
def Obligations.BindRefusesOtherOperands : Prop :=
  ∀ (c : CmdField) (a : List Digit) (s : State),
    (a.length ≠ s.cfg.addrLen → exec (.bind c a) s = .refused .addressLength) ∧
    (a.length = s.cfg.addrLen → allBits a = false → exec (.bind c a) s = .refused .addressNotBits)

/-- 45_transmitsession.md section 3 (R123, R124): in `Bound` with a good rate each of the five supported `ENCODE`
operations completes: `BUF` holds the frames of its payloads, each bit as its three chips, each chip `S` times, then
4096 samples off; `ST` is `Ready`; nothing else but the response changes. -/
def Obligations.EncodeBuildsAndHoldsTheBuffer : Prop :=
  ∀ (s : State) (a : List Digit) (S : Nat), s.st = .bound → s.addr = some a → allBits a = true →
    1 ≤ S → 1 ≤ s.cfg.baudRate → s.cfg.sampleRate = S * s.cfg.baudRate →
    ∀ row ∈ [(Instr.encodePwr, [s.cfg.pPwrPress, s.cfg.pPwrPress, s.cfg.pPwrRelease, s.cfg.pPwrRelease]),
        (Instr.encodeFan0, [s.cfg.pFan0Press, s.cfg.pFan0Press, s.cfg.pFan0Release, s.cfg.pFan0Release]),
        (Instr.encodeFan1, [s.cfg.pFan1, s.cfg.pFan1]), (Instr.encodeFan2, [s.cfg.pFan2, s.cfg.pFan2]),
        (Instr.encodeFan3, [s.cfg.pFan3, s.cfg.pFan3])],
      exec row.1 s = .next { s with
        st := .ready
        buf := ((row.2.flatMap (frame s.cfg a)).flatMap fun b =>
          (if b = 0 then [1, 0, 0] else [1, 1, 0] : List Chip).flatMap fun ch =>
            List.replicate S { re := ch, im := 0 }) ++ List.replicate 4096 { re := 0, im := 0 }
        rsp := some { status := .ok, samples := [] } }

/-- 60_exceptions.md section 3 (R150; the order behind the first place is decision D15): the one error a supported
`ENCODE` reports when several conditions hold; nothing but the response changes. -/
def Obligations.EncodeErrorPriority : Prop :=
  ∀ (i : Instr) (cmd : Command) (s : State), i.command = some cmd →
    let raises := fun e => exec i s = .next { s with rsp := some { status := .error e, samples := [] } }
    if supported cmd = false then raises .unsupportedCommand
    else if s.st = .ready then raises .transmissionInProgress
    else if s.st = .unbound ∨ s.addr = none then raises .missingAddress
    else if samplesPerSymbol s.cfg = .error .invalidRate then raises .invalidRate
    else if ∃ a, s.addr = some a ∧ allBits a = false then raises .invalidBit
    else ∃ b, exec i s = .next { s with st := .ready, buf := b, rsp := some { status := .ok, samples := [] } }

/-- R142: a supported `ENCODE` in `Unbound` raises `MissingAddressError` (code 1); `BIND` and `TAKE` never do; after a
`BIND` the same `ENCODE` goes through. -/
def Obligations.MissingAddressInUnbound : Prop :=
  Status.code (.error .missingAddress) = 1 ∧
  (∀ (s : State), s.st = .unbound →
    ∀ i ∈ [Instr.encodePwr, .encodeFan0, .encodeFan1, .encodeFan2, .encodeFan3],
      exec i s = .next { s with rsp := some { status := .error .missingAddress, samples := [] } } ∧
      ∀ (c : CmdField) (a : List Digit) (S : Nat), addressWf s.cfg.addrLen a = true → samplesPerSymbol s.cfg = .ok S →
        ∃ t u, exec (.bind c a) s = .next t ∧ exec i t = .next u ∧ u.st = .ready ∧
          u.rsp = some { status := .ok, samples := [] }) ∧
  ∀ (i : Instr) (s t : State) (r : Response), i.command = none → exec i s = .next t → t.rsp = some r →
    r.status ≠ .error .missingAddress

/-- R148, R128: a supported `ENCODE` in `Ready` raises `TransmissionInProgressError` (code 6) and keeps the pending
buffer; a `TAKE` then returns that very buffer, and the `ENCODE` after it goes through. -/
def Obligations.OneTransmissionInFlight : Prop :=
  Status.code (.error .transmissionInProgress) = 6 ∧
  ∀ (s : State), s.st = .ready →
    ∀ i ∈ [Instr.encodePwr, .encodeFan0, .encodeFan1, .encodeFan2, .encodeFan3],
      ∃ t, exec i s = .next t ∧
        t = { s with rsp := some { status := .error .transmissionInProgress, samples := [] } } ∧
        ∀ c : CmdField, ∃ u, exec (.take c) t = .next u ∧ u.rsp = some { status := .ok, samples := s.buf } ∧
          ∀ (a : List Digit) (S : Nat), s.addr = some a → allBits a = true → samplesPerSymbol s.cfg = .ok S →
            ∃ v, exec i u = .next v ∧ v.st = .ready ∧ v.rsp = some { status := .ok, samples := [] }

/-- R113, R145: `Pair` and the unknown commands raise `UnsupportedCommandError` (code 3) in every state and whatever the
rates are; the session stays as it was. -/
def Obligations.UnsupportedCommandsAlwaysFail : Prop :=
  Status.code (.error .unsupportedCommand) = 3 ∧
  ∀ (s : State), ∀ i ∈ [Instr.encodePair, .encodeRsvd6, .encodeRsvd7],
    exec i s = .next { s with rsp := some { status := .error .unsupportedCommand, samples := [] } }

/-- 60_exceptions.md section 2 (R149, decision D12): a word with the reserved `OP` raises `IllegalOperation` (code 15)
in every state and changes nothing else. -/
def Obligations.IllegalWordAnswersIllegalOperation : Prop :=
  Status.code (.error .illegalOperation) = 15 ∧
  ∀ (c : CmdField) (s : State),
    exec (.illegal c) s = .next { s with rsp := some { status := .error .illegalOperation, samples := [] } }

/-- R127: `TAKE` in `Ready` returns the whole of `BUF`, empties it and goes to `Bound`, the address untouched; a second
`TAKE` right after it fails; in `Unbound` and `Bound` it raises `NoPendingTransmissionError` and returns no samples. -/
def Obligations.TakeReturnsAndClears : Prop :=
  ∀ (c : CmdField) (s : State),
    (s.st = .ready → ∃ t, exec (.take c) s = .next t ∧
      t = { s with st := .bound, buf := [], rsp := some { status := .ok, samples := s.buf } } ∧
      ∀ c', exec (.take c') t =
        .next { t with rsp := some { status := .error .noPendingTransmission, samples := [] } }) ∧
    (s.st ≠ .ready → exec (.take c) s =
      .next { s with rsp := some { status := .error .noPendingTransmission, samples := [] } })

/-- R140, R146: after an operation that raised, `(ST, ADDR, BUF)` is as before, for every error and every state; the
response carries the error and no sample. -/
def Obligations.AnErrorLeavesNoTrace : Prop :=
  ∀ (i : Instr) (s t : State) (r : Response) (e : SessionError), exec i s = .next t → t.rsp = some r →
    r.status = .error e →
    t.st = s.st ∧ t.addr = s.addr ∧ t.buf = s.buf ∧ t.cfg = s.cfg ∧ t.ops = s.ops ∧ r.samples = []

/-- 45_transmitsession.md sections 2 to 4: the frame of every operation. All keep the configuration and the host's
events; `BIND` (all forms) keeps `BUF`, every `ENCODE` and `TAKE` keep `ADDR`, an illegal word keeps all three; what is
written beside the response is `ST` and `ADDR` (`BIND`), `ST` and `BUF` (`ENCODE`, `TAKE`). -/
def Obligations.OperationFrames : Prop :=
  ∀ (i : Instr) (s t : State), exec i s = .next t →
    t.cfg = s.cfg ∧ t.ops = s.ops ∧
    (∀ c a, i = .bind c a → t.buf = s.buf ∧ (t.addr = s.addr ∨ t.addr = some a)) ∧
    (∀ cmd, i.command = some cmd → t.addr = s.addr ∧ (t.st = s.st → t.buf = s.buf)) ∧
    (∀ c, i = .take c → t.addr = s.addr ∧ (t.buf = s.buf ∨ t.buf = [])) ∧
    (∀ c, i = .illegal c → t.addr = s.addr ∧ t.buf = s.buf ∧ t.st = s.st)

/-- R120: the transition table, one clause per column, in every state that meets the invariant. -/
def Obligations.TransitionTable : Prop :=
  ∀ s : State, s.Inv →
    let raises := fun (i : Instr) (e : SessionError) =>
      exec i s = .next { s with rsp := some { status := .error e, samples := [] } }
    (∀ c a, addressWf s.cfg.addrLen a = true →
      match s.st with
      | .unbound => exec (.bind c a) s =
          .next { s with st := .bound, addr := some a, rsp := some { status := .ok, samples := [] } }
      | .bound => raises (.bind c a) .alreadyBound
      | .ready => raises (.bind c a) .alreadyBound) ∧
    (∀ i cmd, i.command = some cmd → supported cmd = true →
      match s.st with
      | .unbound => raises i .missingAddress
      | .bound => (∃ b, b ≠ [] ∧ exec i s =
            .next { s with st := .ready, buf := b, rsp := some { status := .ok, samples := [] } }) ∨
          (samplesPerSymbol s.cfg = .error .invalidRate ∧ raises i .invalidRate)
      | .ready => raises i .transmissionInProgress) ∧
    (∀ i cmd, i.command = some cmd → supported cmd = false → raises i .unsupportedCommand) ∧
    (∀ c,
      match s.st with
      | .unbound => raises (.take c) .noPendingTransmission
      | .bound => raises (.take c) .noPendingTransmission
      | .ready => exec (.take c) s =
          .next { s with st := .bound, buf := [], rsp := some { status := .ok, samples := s.buf } }) ∧
    (∀ c, raises (.illegal c) .illegalOperation) ∧
    ∀ rest, s.ops = .reset :: rest →
      step s = .next { s with st := .unbound, addr := none, buf := [], ops := rest, rsp := none }

/-- 30_encoding.md section 2 (R65, decision D12): the `CMD` field of `BIND`, `TAKE` and the illegal words has no
effect. -/
def Obligations.CmdFieldIsIgnored : Prop :=
  ∀ (c d : CmdField) (a : List Digit) (s : State),
    exec (.bind c a) s = exec (.bind d a) s ∧ exec (.take c) s = exec (.take d) s ∧
    exec (.illegal c) s = exec (.illegal d) s

/-- 45_transmitsession.md section 3 (R124: the buffer depends only on the payloads, the address, `S` and the
constants): two sessions of one configuration and one address answer an `ENCODE` in `Bound` alike, whatever their
histories and pending inputs are. -/
def Obligations.BufferDoesNotDependOnHistory : Prop :=
  ∀ (i : Instr) (cmd : Command) (s s' t t' : State), i.command = some cmd →
    s.cfg = s'.cfg → s.addr = s'.addr → s.st = .bound → s'.st = .bound →
    exec i s = .next t → exec i s' = .next t' →
    t.st = t'.st ∧ t.rsp = t'.rsp ∧ (t.st = .ready → t.buf = t'.buf)

/-- 45_transmitsession.md section 3 (R123's corner case, 95_test_vectors.md V45): an `ENCODE` repeated after a `TAKE`
builds an equal buffer. -/
def Obligations.RepeatedEncodeBuildsAnEqualBuffer : Prop :=
  ∀ (i : Instr) (cmd : Command) (c : CmdField) (s t : State), i.command = some cmd →
    exec i s = .next t → t.rsp = some { status := .ok, samples := [] } →
    ∃ u v, exec (.take c) t = .next u ∧ u.rsp = some { status := .ok, samples := t.buf } ∧
      exec i u = .next v ∧ v.buf = t.buf ∧ v.rsp = some { status := .ok, samples := [] }

/-- 43_sampleexpander.md section 1 (R101; the zero rates are decision D13): with a bad rate a supported `ENCODE` in
`Bound` raises `InvalidRateError`, and no step ever reaches `Ready`. -/
def Obligations.BadRateNeverMakesABuffer : Prop :=
  ∀ s : State, samplesPerSymbol s.cfg = .error .invalidRate →
    (∀ i cmd a, i.command = some cmd → supported cmd = true → s.st = .bound → s.addr = some a →
      exec i s = .next { s with rsp := some { status := .error .invalidRate, samples := [] } }) ∧
    ∀ t, s.st ≠ .ready → step s = .next t →
      t.st ≠ .ready ∧ samplesPerSymbol t.cfg = .error .invalidRate

/-! ### The machine -/

/-- 00_scope.md section 2 (R5) and 10_state.md section 2 (R25): when the host's next event is a transfer that decodes to
an operation, the step is that operation, in the state where the event is taken and the last output is gone. -/
def Obligations.StepRunsTheDecodedOperation : Prop :=
  ∀ (s : State) (w : OpWord) (a : Nat) (rest : List HostEvent) (i : Instr),
    s.ops = .operation w a :: rest → decode s.cfg.addrLen w a = .ok i →
    step s = exec i { s with ops := rest, rsp := none }

/-- A word of the operation table, placed where the step takes its next event, is run as the operation the decoder reads
from it (log 5: the placing is the model's choice). -/
def Obligations.PlacedWordIsRun : Prop :=
  ∀ (s : State) (nbits w : Nat) (i : Instr), s.cfg.addrLen = 41 → decodeTableWord nbits w = some i →
    step (s.withFetchWord nbits w) = exec i { s with rsp := none }

/-- 10_state.md section 5 (R31, decision D5): the state after reset. -/
def Obligations.StateAfterReset : Prop :=
  State.reset.st = .unbound ∧ State.reset.addr = none ∧ State.reset.buf = [] ∧ State.reset.rsp = none

/-- 70_reset_and_hazards.md section 1 (R170, decision D5): a reset event, in any state, puts the block in the reset state
with no status and no response; the configuration stays. -/
def Obligations.ResetEventFromEveryState : Prop :=
  ∀ (s : State) (rest : List HostEvent), s.ops = .reset :: rest →
    step s = .next { s with st := .unbound, addr := none, buf := [], ops := rest, rsp := none }

/-- 10_state.md section 4 (R30 items 1 to 3, the spec's derivation): the invariant holds at reset. -/
def Obligations.InvariantHoldsAtReset : Prop := State.reset.Inv

/-- 10_state.md section 4 (R30 items 1 to 3, the spec's derivation, and R22's length): every step keeps the
invariant. -/
def Obligations.EveryStepKeepsTheInvariant : Prop :=
  ∀ s t : State, s.Inv → step s = .next t → t.Inv

/-- 10_state.md section 4 (R30 item 4, the spec's derivation): once `ADDR` holds a value it keeps it until reset. -/
def Obligations.AddressIsKeptUntilReset : Prop :=
  ∀ (s t : State) (a : List Digit), s.Inv → s.addr = some a → (∀ rest, s.ops ≠ .reset :: rest) →
    step s = .next t → t.addr = some a

/-- 10_state.md section 4 (R30 item 5, the spec's derivation): nothing but reset leads back to `Unbound`. -/
def Obligations.OnlyResetReturnsToUnbound : Prop :=
  ∀ s t : State, step s = .next t → t.st = .unbound → s.st = .unbound ∨ ∃ rest, s.ops = .reset :: rest

/-- 60_exceptions.md section 2 (R144) and 42_lineencoder.md section 3: `InvalidBitError` is unreachable in the assembled
block: no step from a state that meets the invariant answers it. -/
def Obligations.InvalidBitIsUnreachable : Prop :=
  ∀ (s t : State) (r : Response), s.Inv → step s = .next t → t.rsp = some r → r.status ≠ .error .invalidBit

/-- 70_reset_and_hazards.md section 4 (R178, the spec's derivation): the block never becomes unable to take an event:
with no event, a reset or a transfer whose bus value fits, the step answers a next state. -/
def Obligations.TheBlockNeverHangs : Prop :=
  ∀ s : State, (∀ e rest, s.ops = e :: rest → eventWf s.cfg.addrLen e = true) → ∃ t, step s = .next t

/-- 20_memory.md section 6 (R47) and 70_reset_and_hazards.md section 4: a run makes one response per operation, none for a
reset. -/
def Obligations.OneResponsePerOperation : Prop :=
  ∀ s : State, (∀ e ∈ s.ops, eventWf s.cfg.addrLen e = true) →
    (observe s.ops.length s).length = s.ops.countP fun e => e != .reset

/-- R72: `requestTransmit` of a command whose `ENCODE` completes hands the whole built buffer over and leaves the block in
`Bound` with its address; otherwise it reports the error, hands nothing over and leaves the session as it was. -/
def Obligations.RequestTransmitHandsTheBufferOver : Prop :=
  ∀ (cmd : Command) (s : State),
    (∀ b, encodeBuffer cmd s = .ok b → ∃ m, requestTransmit cmd s = .next m ∧ m.status = some .ok ∧
      m.toSink = some b ∧ m.block.st = .bound ∧ m.block.addr = s.addr ∧ m.block.buf = []) ∧
    (∀ e, encodeBuffer cmd s = .error e → ∃ m, requestTransmit cmd s = .next m ∧ m.status = some (.error e) ∧
      m.toSink = none ∧ m.block.st = s.st ∧ m.block.addr = s.addr ∧ m.block.buf = s.buf)

/-! ### The pins (the spec's own choice D2; log 7 and log 8 say what the wrapper adds) -/

/-- 30_encoding.md section 1 (R63): whatever stalls the consumer makes, the sample channel carries the buffer in index
order, each sample once, `s_last` on the final one only, and is idle afterwards. -/
def Obligations.SampleChannelCarriesTheBuffer : Prop :=
  ∀ (b : List Sample) (s : State) (xs : List PinInput),
    (∀ x ∈ xs, x.rst = false ∧ x.opValid = false) → (xs.countP fun x => x.sReady) = b.length →
    runPins { block := s, phase := streamPhase b } xs = .next ({ block := s, phase := .idle }, asStream b) ∧
    (asStream b).map Prod.fst = b ∧
    ∀ i < b.length, (asStream b)[i]?.map Prod.snd = some (decide (i + 1 = b.length))

/-- 30_encoding.md section 1 (R61, R62) and R66: an operation transfer, its completion and its response are one step of
the block on that word and bus value; the response offered is the step's, and its samples follow. -/
def Obligations.PinsRealiseTheStep : Prop :=
  ∀ (s t : State) (r : Response) (x y z : PinInput),
    x.rst = false → y.rst = false → z.rst = false → x.opValid = true → y.done = true → z.rspReady = true →
    step { s with ops := [.operation x.opWord x.opAddr] } = .next t → t.rsp = some r →
    ∃ p q, clockEdge { block := s, phase := .idle } x = .next p ∧ opReady p = false ∧ rspPins p = none ∧
      clockEdge p y = .next q ∧ q.block = t ∧ opReady q = false ∧ rspPins q = some r.status.code ∧
      clockEdge q z = .next { block := t, phase := streamPhase r.samples }

/-- 30_encoding.md section 1 (R61): while an operation is in progress the operation pins have no effect. -/
def Obligations.BusyBlockIgnoresTheOperationPins : Prop :=
  ∀ (p : PinState) (x : PinInput) (v : Bool) (w : OpWord) (a : Nat), opReady p = false →
    clockEdge p { x with opValid := v, opWord := w, opAddr := a } = clockEdge p x

/-- 10_state.md section 1 and 30_encoding.md section 1 (R21, R28, R64, decision D3): the status pins show 2, `Encoding`,
while an `ENCODE` that was transferred has not responded (log 8), and in every other case the code of `ST`: with nothing
in progress, while samples are streamed, and during a `BIND`, a `TAKE` or an illegal word. No code of `ST` is 2. -/
def Obligations.StatusPinsShowTheState : Prop :=
  ∀ (s : State) (w : OpWord) (a : Nat) (r : Response) (x : Sample) (rest : List Sample),
    let stCode : BitVec 2 :=
      match s.st with
      | .unbound => 0
      | .bound => 1
      | .ready => 3
    stCode ≠ 2 ∧
    statePins { block := s, phase := .idle } = stCode ∧
    statePins { block := s, phase := .streaming x rest } = stCode ∧
    (opField w = 0b01 →
      statePins { block := s, phase := .working w a } = 2 ∧ statePins { block := s, phase := .responding w r } = 2) ∧
    (opField w ≠ 0b01 →
      statePins { block := s, phase := .working w a } = stCode ∧
      statePins { block := s, phase := .responding w r } = stCode)

/-- 70_reset_and_hazards.md section 1 (R170, R171, decision D5): with `rst` sampled 1 whatever is in progress is
abandoned: no response is offered, no sample is transferred, and the block is in the reset state. -/
def Obligations.PinResetAbandonsTheOperation : Prop :=
  ∀ (p : PinState) (x : PinInput), x.rst = true →
    sampleTransfer p x = none ∧
    ∃ q, clockEdge p x = .next q ∧ opReady q = true ∧ rspPins q = none ∧ samplePins q = none ∧
      q.block = { p.block with st := .unbound, addr := none, buf := [], rsp := none }

/-! ### The listing syntax -/

/-- 30_encoding.md section 4 (R71, decision D12): reading the line of an operation gives that operation, its ignored
`CMD` field 0, with blanks before it and a comment after it. -/
def Obligations.ListingReadsBack : Prop :=
  ∀ (i : Instr) (n m : Nat) (line comment : List Char), writeInstr i = some line → (∀ c a, i = .bind c a → allBits a = true) →
    readLine (List.replicate m ' ' ++ line ++ List.replicate n ' ' ++ ';' :: comment) = some (.operation
      (match i with
        | .bind _ a => .bind 0 a
        | .take _ => .take 0
        | j => j))
end

