-- ==== Sys2Proof/Laws/Bits.lean ====
section
/-! SUPPORT. Bit strings and their packing on a bus (20_memory.md R43). -/

namespace Sys2Proof

@[simp] theorem allBits_nil : allBits [] = true := rfl

@[simp] theorem allBits_cons (d : Digit) (x : List Digit) : allBits (d :: x) = (isBit d && allBits x) := rfl

@[simp] theorem allBits_append (x y : List Digit) : allBits (x ++ y) = (allBits x && allBits y) := by
  simp [allBits]

theorem isBit_iff {d : Digit} : isBit d = true ↔ d = 0 ∨ d = 1 := by simp [isBit]

theorem allBits_iff {x : List Digit} : allBits x = true ↔ ∀ d ∈ x, d = 0 ∨ d = 1 := by
  simp [allBits, isBit_iff]

theorem allBits_replicate_zero (n : Nat) : allBits (List.replicate n 0) = true := by
  simp [allBits_iff]

@[simp] theorem bitsOfNat_length (n x : Nat) : (bitsOfNat n x).length = n := by simp [bitsOfNat]

theorem bitsOfNat_getElem? {n x i : Nat} (h : i < n) :
    (bitsOfNat n x)[i]? = some (x.testBit (n - 1 - i)).toNat := by
  simp [bitsOfNat, h]

@[simp] theorem bitsOfNat_allBits (n x : Nat) : allBits (bitsOfNat n x) = true := by
  rw [allBits_iff]
  intro d hd
  obtain ⟨i, -, rfl⟩ := List.mem_map.mp hd
  cases Nat.testBit x (n - 1 - i) <;> simp

theorem addressWf_iff {n : Nat} {a : List Digit} :
    addressWf n a = true ↔ a.length = n ∧ allBits a = true := by
  simp [addressWf]

theorem addressWf_bitsOfNat (n x : Nat) : addressWf n (bitsOfNat n x) = true := by
  simp [addressWf_iff]

theorem natOfBits_foldl (x : List Digit) (acc : Nat) :
    x.foldl (fun acc d => 2 * acc + d) acc = acc * 2 ^ x.length + natOfBits x := by
  induction x generalizing acc with
  | nil => simp [natOfBits]
  | cons d x ih =>
    have h0 := ih (2 * acc + d)
    have h1 := ih (2 * 0 + d)
    simp only [natOfBits, List.foldl_cons, List.length_cons] at *
    rw [h0, h1, pow_succ]
    ring

theorem natOfBits_cons (d : Digit) (x : List Digit) : natOfBits (d :: x) = d * 2 ^ x.length + natOfBits x := by
  have := natOfBits_foldl x (2 * 0 + d)
  simpa [natOfBits] using this

theorem natOfBits_lt {x : List Digit} (h : allBits x = true) : natOfBits x < 2 ^ x.length := by
  induction x with
  | nil => simp [natOfBits]
  | cons d x ih =>
    simp only [allBits_cons, Bool.and_eq_true, isBit_iff] at h
    have hx := ih h.2
    rw [natOfBits_cons, List.length_cons, pow_succ]
    rcases h.1 with rfl | rfl <;> omega

/-- The leading element of an unpacked sequence is the top bit, the rest unpacks the bits below it. -/
theorem bitsOfNat_succ (n x : Nat) : bitsOfNat (n + 1) x = (x.testBit n).toNat :: bitsOfNat n (x % 2 ^ n) := by
  simp only [bitsOfNat, List.range_succ_eq_map, List.map_cons, List.map_map]
  refine congrArg₂ _ (by simp) (List.map_congr_left fun i hi => ?_)
  have hi : i < n := List.mem_range.mp hi
  simp only [Function.comp, Nat.testBit_mod_two_pow]
  rw [show n + 1 - 1 - (i + 1) = n - 1 - i by omega]
  simp [show n - 1 - i < n by omega]

/-- Packing a bit string and unpacking it again gives it back (R43). -/
theorem bitsOfNat_natOfBits {x : List Digit} (h : allBits x = true) : bitsOfNat x.length (natOfBits x) = x := by
  induction x with
  | nil => rfl
  | cons d x ih =>
    simp only [allBits_cons, Bool.and_eq_true, isBit_iff] at h
    have hlt := natOfBits_lt h.2
    rw [List.length_cons, bitsOfNat_succ, natOfBits_cons, Nat.mul_add_mod', Nat.mod_eq_of_lt hlt, ih h.2]
    congr 1
    rcases h.1 with rfl | rfl
    · simp [Nat.testBit_lt_two_pow hlt]
    · simp [Nat.testBit_two_pow_add_eq, Nat.testBit_lt_two_pow hlt]

/-- Unpacking a bus value and packing it again gives it back (R43). -/
theorem natOfBits_bitsOfNat {n a : Nat} (h : a < 2 ^ n) : natOfBits (bitsOfNat n a) = a := by
  induction n generalizing a with
  | zero => obtain rfl : a = 0 := by simpa using h
            rfl
  | succ n ih =>
    have hpos : 0 < 2 ^ n := by positivity
    have hq : a / 2 ^ n < 2 := by rw [Nat.div_lt_iff_lt_mul hpos]; rw [pow_succ] at h; omega
    have hbit : (a.testBit n).toNat = a / 2 ^ n := by
      rw [Nat.testBit_eq_decide_div_mod_eq]
      generalize a / 2 ^ n = q at hq
      obtain rfl | rfl : q = 0 ∨ q = 1 := by omega
      all_goals rfl
    rw [bitsOfNat_succ, natOfBits_cons, bitsOfNat_length, ih (Nat.mod_lt _ hpos), hbit]
    exact Nat.div_add_mod' a (2 ^ n)

/-! ### The two fields of a word (R65) -/

@[simp] theorem opField_append (o : BitVec 2) (c : CmdField) : opField (o ++ c) = o := by
  revert o c; decide

@[simp] theorem cmdField_append (o : BitVec 2) (c : CmdField) : cmdField (o ++ c) = c := by
  revert o c; decide

theorem opField_append_cmdField (w : OpWord) : opField w ++ cmdField w = w := by
  revert w; decide

end Sys2Proof
end

