-- ==== Sys2Proof/Laws/Lists.lean ====
section
/-! SUPPORT. Lists built from blocks of one length. -/

namespace Sys2Proof

variable {α β : Type}

theorem flatMap_length_const {f : α → List β} {k : Nat} (hk : ∀ a, (f a).length = k) (l : List α) :
    (l.flatMap f).length = k * l.length := by
  induction l with
  | nil => simp
  | cons a l ih => simp [hk, ih, Nat.mul_succ, Nat.add_comm]

/-- Element `k * j + c` of a sequence of blocks of length `k` is element `c` of block `j`. -/
theorem flatMap_getElem?_const {f : α → List β} {k : Nat} (hk : ∀ a, (f a).length = k) (l : List α) (j c : Nat)
    (hc : c < k) : (l.flatMap f)[k * j + c]? = l[j]?.bind fun a => (f a)[c]? := by
  induction l generalizing j with
  | nil => simp
  | cons a l ih =>
    rw [List.flatMap_cons]
    cases j with
    | zero => simp [List.getElem?_append_left, hk, hc]
    | succ j =>
      rw [List.getElem?_append_right (by rw [hk, Nat.mul_succ]; omega), hk,
        show k * (j + 1) + c - k = k * j + c by rw [Nat.mul_succ]; omega, ih]
      simp

end Sys2Proof
end

