-- ==== Sys2Proof/Laws/Stages.lean ====
section
/-! SUPPORT. One lemma per stage function (41 to 44): everything it can answer. -/

namespace Sys2Proof.Machine

/-! ### The configuration (R190) -/

theorem RawConfig_defect_none {r : RawConfig} (h : r.wf = true) :
    r.addrLen ≠ 0 ∧ r.preamble.length = preambleLen ∧ (∀ p ∈ r.payloads, p.length = payloadLen) ∧
      r.pPwrPress ≠ r.pPwrRelease ∧ ∀ x ∈ r.preamble :: r.payloads, allBits x = true := by
  unfold RawConfig.wf RawConfig.defect at h
  split at h
  · simp at h
  split at h
  · simp at h
  split at h
  · simp at h
  split at h
  · simp at h
  split at h
  · simp at h
  rename_i h1 h2 h3 h4 h5
  refine ⟨h1, by simpa using h2, ?_, h4, ?_⟩
  · simpa using h3
  · simpa using h5

theorem config_addrLen (c : Config) : c.addrLen ≠ 0 := (RawConfig_defect_none c.isWf).1

theorem config_preamble_length (c : Config) : c.preamble.length = preambleLen := (RawConfig_defect_none c.isWf).2.1

theorem config_preamble_allBits (c : Config) : allBits c.preamble = true :=
  (RawConfig_defect_none c.isWf).2.2.2.2 _ (by simp)

theorem config_payload {c : Config} {p : List Digit} (h : p ∈ c.toRawConfig.payloads) :
    p.length = payloadLen ∧ allBits p = true :=
  ⟨(RawConfig_defect_none c.isWf).2.2.1 p h, (RawConfig_defect_none c.isWf).2.2.2.2 p (by simp [h])⟩

theorem config_pwr_ne (c : Config) : c.pPwrPress ≠ c.pPwrRelease := (RawConfig_defect_none c.isWf).2.2.2.1

/-! ### CommandRepeater (R111) -/

theorem payloads_of_not_supported {cmd : Command} (h : supported cmd = false) (c : Config) :
    payloads c cmd = .error .unsupportedCommand := by
  cases cmd <;> simp_all [supported, payloads]

theorem payloads_of_supported {cmd : Command} (h : supported cmd = true) (c : Config) :
    ∃ ps, payloads c cmd = .ok ps := by
  cases cmd <;> simp_all [supported, payloads]

/-- `Payloads` answers two or four of the configuration's payloads, or `UnsupportedCommandError`. -/
theorem payloads_cases (c : Config) (cmd : Command) :
    (∃ ps, payloads c cmd = .ok ps ∧ (ps.length = 2 ∨ ps.length = 4) ∧ ∀ p ∈ ps, p ∈ c.toRawConfig.payloads) ∨
      payloads c cmd = .error .unsupportedCommand := by
  cases cmd <;> simp [payloads, RawConfig.payloads]

theorem payloads_mem {c : Config} {cmd : Command} {ps : List (List Digit)} (h : payloads c cmd = .ok ps)
    {p : List Digit} (hp : p ∈ ps) : p.length = payloadLen ∧ allBits p = true := by
  rcases payloads_cases c cmd with ⟨qs, hq, -, hm⟩ | he
  · obtain rfl : qs = ps := by simpa [hq] using h
    exact config_payload (hm p hp)
  · simp [he] at h

/-! ### BitFramer (R80, R83) -/

theorem frame_length {c : Config} {a p : List Digit} (ha : a.length = c.addrLen) (hp : p.length = payloadLen) :
    (frame c a p).length = frameLen c := by
  simp [frame, frameLen, config_preamble_length, ha, hp, gap, Nat.add_assoc]

theorem frame_allBits {c : Config} {a p : List Digit} (ha : allBits a = true) (hp : allBits p = true) :
    allBits (frame c a p) = true := by
  have hs : allBits separator = true := by decide
  simp [frame, config_preamble_allBits, ha, hp, hs, gap, allBits_replicate_zero]

theorem framesOf_allBits {c : Config} {a : List Digit} {ps : List (List Digit)} (ha : allBits a = true)
    (hp : ∀ p ∈ ps, allBits p = true) : allBits (framesOf c ps a).flatten = true := by
  rw [allBits_iff]
  intro d hd
  obtain ⟨f, hf, hdf⟩ := List.mem_flatten.mp hd
  obtain ⟨p, hpm, rfl⟩ := List.mem_map.mp hf
  exact allBits_iff.mp (frame_allBits ha (hp p hpm)) d hdf

/-- Frame `k` of a transmission starts at bit `k * FRAME_LEN` (R112). -/
theorem framesOf_flatten_getElem? {c : Config} {ps : List (List Digit)} {a : List Digit} (ha : a.length = c.addrLen)
    (hp : ∀ p ∈ ps, p.length = payloadLen) (k j : Nat) (hj : j < frameLen c) :
    (framesOf c ps a).flatten[frameLen c * k + j]? = ps[k]?.bind fun p => (frame c a p)[j]? := by
  induction ps generalizing k with
  | nil => simp [framesOf]
  | cons p ps ih =>
    have hf := frame_length (c := c) ha (hp p (by simp))
    have ih := fun k => ih (fun q hq => hp q (by simp [hq])) k
    simp only [framesOf, List.map_cons, List.flatten_cons] at *
    cases k with
    | zero => rw [List.getElem?_append_left (by rw [hf]; omega)]; simp
    | succ k =>
      rw [List.getElem?_append_right (by rw [hf, Nat.mul_succ]; omega), hf,
        show frameLen c * (k + 1) + j - frameLen c = frameLen c * k + j by rw [Nat.mul_succ]; omega, ih]
      simp

theorem framesOf_flatten_length {c : Config} {ps : List (List Digit)} {a : List Digit} (ha : a.length = c.addrLen)
    (hp : ∀ p ∈ ps, p.length = payloadLen) : (framesOf c ps a).flatten.length = ps.length * frameLen c := by
  induction ps with
  | nil => simp [framesOf]
  | cons p ps ih =>
    have hf := frame_length (c := c) ha (hp p (by simp))
    have ih := ih fun q hq => hp q (by simp [hq])
    simp only [framesOf, List.map_cons, List.flatten_cons, List.length_append, List.length_cons] at *
    rw [hf, ih]; ring

/-- The spec's own form of the frame length (R16). -/
theorem frameLen_eq (c : Config) : frameLen c = 127 + c.addrLen := by
  simp only [frameLen, preambleLen, separator, payloadLen, gapLen, List.length_cons, List.length_nil]; omega

/-! ### LineEncoder (R90 to R92) -/

/-- The chips of a bit string in closed form: `LUT(b) = [1, b, 0]` (R90). -/
def chipsOf (bits : List Digit) : List Chip := bits.flatMap fun d => [1, BitVec.ofNat 1 d, 0]

@[simp] theorem chipsOf_nil : chipsOf [] = [] := rfl

@[simp] theorem chipsOf_cons (d : Digit) (x : List Digit) : chipsOf (d :: x) = [1, BitVec.ofNat 1 d, 0] ++ chipsOf x :=
  rfl

@[simp] theorem chipsOf_append (x y : List Digit) : chipsOf (x ++ y) = chipsOf x ++ chipsOf y := by
  simp [chipsOf]

@[simp] theorem chipsOf_length (x : List Digit) : (chipsOf x).length = 3 * x.length :=
  flatMap_length_const (k := 3) (fun _ => rfl) x

theorem lut_of_isBit {d : Digit} (h : isBit d = true) : lut d = .ok [1, BitVec.ofNat 1 d, 0] := by
  rcases isBit_iff.mp h with rfl | rfl <;> rfl

theorem lut_of_not_isBit {d : Digit} (h : isBit d = false) : lut d = .error .invalidBit := by
  simp [isBit] at h
  simp [lut, h]

theorem lineEncode_ok {x : List Digit} (h : allBits x = true) : lineEncode x = .ok (chipsOf x) := by
  induction x with
  | nil => rfl
  | cons d x ih =>
    simp only [allBits_cons, Bool.and_eq_true] at h
    simp [lineEncode, lut_of_isBit h.1, ih h.2]

theorem lineEncode_error {x : List Digit} (h : allBits x = false) : lineEncode x = .error .invalidBit := by
  induction x with
  | nil => simp at h
  | cons d x ih =>
    cases hd : isBit d with
    | false => simp [lineEncode, lut_of_not_isBit hd]
    | true =>
      have hx : allBits x = false := by simpa [hd] using h
      simp [lineEncode, lut_of_isBit hd, ih hx]

theorem lineEncode_eq_ok {x : List Digit} {chips : List Chip} (h : lineEncode x = .ok chips) :
    allBits x = true ∧ chips = chipsOf x := by
  cases hx : allBits x with
  | false => simp [lineEncode_error hx] at h
  | true => exact ⟨rfl, by simpa [lineEncode_ok hx] using h.symm⟩

/-! ### SampleExpander (R100, R102) -/

@[simp] theorem expand_nil (S : Nat) : expand [] S = [] := rfl

@[simp] theorem expand_cons (c : Chip) (x : List Chip) (S : Nat) :
    expand (c :: x) S = List.replicate S { re := c, im := 0 } ++ expand x S := rfl

@[simp] theorem expand_append (x y : List Chip) (S : Nat) : expand (x ++ y) S = expand x S ++ expand y S := by
  simp [expand]

@[simp] theorem expand_length (x : List Chip) (S : Nat) : (expand x S).length = S * x.length :=
  flatMap_length_const (fun _ => by simp) x

theorem chip_cases (c : Chip) : c = 0 ∨ c = 1 := by
  revert c; decide

theorem expand_mem {x : List Chip} {S : Nat} {y : Sample} (h : y ∈ expand x S) : y = Sample.off ∨ y = Sample.on := by
  obtain ⟨c, -, hy⟩ := List.mem_flatMap.mp h
  rw [List.eq_of_mem_replicate hy]
  rcases chip_cases c with rfl | rfl
  · exact .inl rfl
  · exact .inr rfl

/-- `SamplesPerSymbol` answers the exact quotient, at least 1, or `InvalidRateError`. -/
theorem samplesPerSymbol_cases (c : Config) :
    (∃ S, samplesPerSymbol c = .ok S ∧ 1 ≤ S ∧ c.sampleRate = S * c.baudRate) ∨
      samplesPerSymbol c = .error .invalidRate := by
  unfold samplesPerSymbol
  split
  · exact .inr rfl
  split
  · exact .inr rfl
  split
  · exact .inr rfl
  rename_i h1 h2 h3
  refine .inl ⟨_, rfl, Nat.pos_of_ne_zero h3, ?_⟩
  exact (Nat.div_mul_cancel (Nat.dvd_of_mod_eq_zero (by simpa using h2))).symm

/-! ### BuildBuffer (R124) -/

@[simp] theorem pad_length : pad.length = padLen := by simp [pad]

theorem pad_getElem? {n : Nat} (h : n < padLen) : pad[n]? = some Sample.off := by
  rw [pad, List.getElem?_replicate, if_pos h]

theorem pad_ne_nil : pad ≠ [] := fun h => by
  have := congrArg List.length h
  rw [pad_length] at this
  cases this

theorem pad_count_on : pad.count Sample.on = 0 := by
  rw [pad, List.count_replicate, if_neg (by decide)]

theorem buildBuffer_ok {c : Config} {ps : List (List Digit)} {a : List Digit} {S : Nat} (ha : allBits a = true)
    (hp : ∀ p ∈ ps, allBits p = true) :
    buildBuffer c ps a S = .ok (expand (chipsOf (framesOf c ps a).flatten) S ++ pad) := by
  simp [buildBuffer, lineEncode_ok (framesOf_allBits ha hp)]

/-- `BuildBuffer` answers samples that are on or off with the pad at the end, or `InvalidBitError`. -/
theorem buildBuffer_cases (c : Config) (ps : List (List Digit)) (a : List Digit) (S : Nat) :
    (∃ chips, buildBuffer c ps a S = .ok (expand chips S ++ pad)) ∨ buildBuffer c ps a S = .error .invalidBit := by
  unfold buildBuffer
  cases h : allBits (framesOf c ps a).flatten with
  | true => exact .inl ⟨chipsOf (framesOf c ps a).flatten, by simp [lineEncode_ok h]⟩
  | false => exact .inr (by simp [lineEncode_error h])

end Sys2Proof.Machine
end

