-- ==== Sys2Proof/Laws/State.lean ====
section
/-! SUPPORT. One lemma per field per update of the state, so that no proof unfolds a record update. -/

namespace Sys2Proof.Machine

variable (s : State)

@[simp] theorem State.respond_cfg (status : Status) (samples : List Sample) : (s.respond status samples).cfg = s.cfg := rfl
@[simp] theorem State.respond_st (status : Status) (samples : List Sample) : (s.respond status samples).st = s.st := rfl
@[simp] theorem State.respond_addr (status : Status) (samples : List Sample) : (s.respond status samples).addr = s.addr := rfl
@[simp] theorem State.respond_buf (status : Status) (samples : List Sample) : (s.respond status samples).buf = s.buf := rfl
@[simp] theorem State.respond_ops (status : Status) (samples : List Sample) : (s.respond status samples).ops = s.ops := rfl
@[simp] theorem State.respond_rsp (status : Status) (samples : List Sample) : (s.respond status samples).rsp = some { status := status, samples := samples } := rfl

@[simp] theorem State.bindTo_cfg (a : List Digit) : (s.bindTo a).cfg = s.cfg := rfl
@[simp] theorem State.bindTo_st (a : List Digit) : (s.bindTo a).st = .bound := rfl
@[simp] theorem State.bindTo_addr (a : List Digit) : (s.bindTo a).addr = some a := rfl
@[simp] theorem State.bindTo_buf (a : List Digit) : (s.bindTo a).buf = s.buf := rfl
@[simp] theorem State.bindTo_ops (a : List Digit) : (s.bindTo a).ops = s.ops := rfl
@[simp] theorem State.bindTo_rsp (a : List Digit) : (s.bindTo a).rsp = s.rsp := rfl

@[simp] theorem State.hold_cfg (b : List Sample) : (s.hold b).cfg = s.cfg := rfl
@[simp] theorem State.hold_st (b : List Sample) : (s.hold b).st = .ready := rfl
@[simp] theorem State.hold_addr (b : List Sample) : (s.hold b).addr = s.addr := rfl
@[simp] theorem State.hold_buf (b : List Sample) : (s.hold b).buf = b := rfl
@[simp] theorem State.hold_ops (b : List Sample) : (s.hold b).ops = s.ops := rfl
@[simp] theorem State.hold_rsp (b : List Sample) : (s.hold b).rsp = s.rsp := rfl

@[simp] theorem State.release_cfg : (s.release).cfg = s.cfg := rfl
@[simp] theorem State.release_st : (s.release).st = .bound := rfl
@[simp] theorem State.release_addr : (s.release).addr = s.addr := rfl
@[simp] theorem State.release_buf : (s.release).buf = [] := rfl
@[simp] theorem State.release_ops : (s.release).ops = s.ops := rfl
@[simp] theorem State.release_rsp : (s.release).rsp = s.rsp := rfl

@[simp] theorem State.clear_cfg : (s.clear).cfg = s.cfg := rfl
@[simp] theorem State.clear_st : (s.clear).st = .unbound := rfl
@[simp] theorem State.clear_addr : (s.clear).addr = none := rfl
@[simp] theorem State.clear_buf : (s.clear).buf = [] := rfl
@[simp] theorem State.clear_ops : (s.clear).ops = s.ops := rfl
@[simp] theorem State.clear_rsp : (s.clear).rsp = none := rfl

@[simp] theorem State.await_cfg (rest : List HostEvent) : (s.await rest).cfg = s.cfg := rfl
@[simp] theorem State.await_st (rest : List HostEvent) : (s.await rest).st = s.st := rfl
@[simp] theorem State.await_addr (rest : List HostEvent) : (s.await rest).addr = s.addr := rfl
@[simp] theorem State.await_buf (rest : List HostEvent) : (s.await rest).buf = s.buf := rfl
@[simp] theorem State.await_ops (rest : List HostEvent) : (s.await rest).ops = rest := rfl
@[simp] theorem State.await_rsp (rest : List HostEvent) : (s.await rest).rsp = none := rfl

@[simp] theorem State.withFetchWord_cfg (nbits w : Nat) : (s.withFetchWord nbits w).cfg = s.cfg := rfl
@[simp] theorem State.withFetchWord_st (nbits w : Nat) : (s.withFetchWord nbits w).st = s.st := rfl
@[simp] theorem State.withFetchWord_addr (nbits w : Nat) : (s.withFetchWord nbits w).addr = s.addr := rfl
@[simp] theorem State.withFetchWord_buf (nbits w : Nat) : (s.withFetchWord nbits w).buf = s.buf := rfl
@[simp] theorem State.withFetchWord_ops (nbits w : Nat) : (s.withFetchWord nbits w).ops = tableTransfer nbits w :: s.ops := rfl
@[simp] theorem State.withFetchWord_rsp (nbits w : Nat) : (s.withFetchWord nbits w).rsp = s.rsp := rfl

/-- Every state is settled by its six fields. -/
theorem State.ext_fields {s t : State} (h1 : s.cfg = t.cfg) (h2 : s.st = t.st) (h3 : s.addr = t.addr)
    (h4 : s.buf = t.buf) (h5 : s.ops = t.ops) (h6 : s.rsp = t.rsp) : s = t := by
  cases s; cases t; simp_all

end Sys2Proof.Machine
end

