-- ==== Sys2Proof/Laws/Session.lean ====
section
/-! SUPPORT. One lemma per shared operation of TransmitSession (45_transmitsession.md), and what a step can do. -/

namespace Sys2Proof.Machine

theorem raiseError_eq (e : SessionError) (s : State) : raiseError e s = .next (s.respond (.error e) []) := rfl

theorem complete_eq (b : List Sample) (s : State) : complete b s = .next (s.respond .ok b) := rfl

/-- `ENCODE` computes a buffer only in `Bound`, of a supported command, with an address and a good rate. -/
theorem encodeBuffer_ok {cmd : Command} {s : State} {b : List Sample} (h : encodeBuffer cmd s = .ok b) :
    ∃ ps a S, payloads s.cfg cmd = .ok ps ∧ s.st = .bound ∧ s.addr = some a ∧ samplesPerSymbol s.cfg = .ok S ∧
      buildBuffer s.cfg ps a S = .ok b := by
  unfold encodeBuffer at h
  cases hp : payloads s.cfg cmd with
  | error e => simp [hp] at h
  | ok ps =>
    cases hst : s.st <;> simp [hp, hst] at h
    cases ha : s.addr with
    | none => simp [ha] at h
    | some a =>
      cases hS : samplesPerSymbol s.cfg with
      | error e => simp [ha, hS] at h
      | ok S => exact ⟨ps, a, S, rfl, rfl, rfl, rfl, by simpa [ha, hS] using h⟩

/-- The same, from its conditions. -/
theorem encodeBuffer_eq {cmd : Command} {s : State} {ps : List (List Digit)} {a : List Digit} {S : Nat}
    (hp : payloads s.cfg cmd = .ok ps) (hst : s.st = .bound) (ha : s.addr = some a)
    (hS : samplesPerSymbol s.cfg = .ok S) : encodeBuffer cmd s = buildBuffer s.cfg ps a S := by
  simp [encodeBuffer, hp, hst, ha, hS]

/-- `ENCODE` raises an error and writes nothing, or holds a buffer in `Ready`. -/
theorem encodeCommand_cases (cmd : Command) (s : State) :
    (∃ e, encodeBuffer cmd s = .error e ∧ encodeCommand cmd s = .next (s.respond (.error e) [])) ∨
      ∃ b, encodeBuffer cmd s = .ok b ∧ encodeCommand cmd s = .next ((s.hold b).respond .ok []) := by
  unfold encodeCommand
  cases encodeBuffer cmd s with
  | error e => exact .inl ⟨e, rfl, rfl⟩
  | ok b => exact .inr ⟨b, rfl, rfl⟩

/-- A supported `ENCODE` in `Bound` with an address of bits and a good rate holds a buffer. -/
theorem encodeCommand_completes {cmd : Command} {s : State} {a : List Digit} {S : Nat} (hc : supported cmd = true)
    (hst : s.st = .bound) (ha : s.addr = some a) (hab : allBits a = true) (hS : samplesPerSymbol s.cfg = .ok S) :
    ∃ b, encodeBuffer cmd s = .ok b ∧ encodeCommand cmd s = .next ((s.hold b).respond .ok []) := by
  obtain ⟨ps, hp⟩ := payloads_of_supported hc s.cfg
  have hb := encodeBuffer_eq hp hst ha hS
  rw [buildBuffer_ok hab fun p h => (payloads_mem hp h).2] at hb
  exact ⟨_, hb, by rw [encodeCommand, hb]; rfl⟩

/-- `BIND` is refused, raises `AlreadyBoundError`, or writes the address. -/
theorem bindAddress_cases (a : List Digit) (s : State) :
    (addressWf s.cfg.addrLen a = false ∧ ∃ r, bindAddress a s = .refused r) ∨
      (addressWf s.cfg.addrLen a = true ∧ s.st ≠ .unbound ∧
        bindAddress a s = .next (s.respond (.error .alreadyBound) [])) ∨
      (addressWf s.cfg.addrLen a = true ∧ s.st = .unbound ∧ bindAddress a s = .next ((s.bindTo a).respond .ok [])) := by
  unfold bindAddress
  by_cases h1 : a.length = s.cfg.addrLen
  · cases h2 : allBits a with
    | false => exact .inl ⟨by simp [addressWf, h1, h2], .addressNotBits, by simp [h1]⟩
    | true =>
      have hw : addressWf s.cfg.addrLen a = true := addressWf_iff.mpr ⟨h1, h2⟩
      by_cases h3 : s.st = .unbound
      · exact .inr (.inr ⟨hw, h3, by simp [h1, h3, complete]⟩)
      · exact .inr (.inl ⟨hw, h3, by simp [h1, h3, raiseError]⟩)
  · exact .inl ⟨by simp [addressWf, h1], .addressLength, by simp [h1]⟩

/-- `TAKE` raises `NoPendingTransmissionError`, or returns and empties the buffer. -/
theorem takeBuffer_cases (s : State) :
    (s.st ≠ .ready ∧ takeBuffer s = .next (s.respond (.error .noPendingTransmission) [])) ∨
      (s.st = .ready ∧ takeBuffer s = .next (s.release.respond .ok s.buf)) := by
  unfold takeBuffer
  by_cases h : s.st = .ready
  · exact .inr ⟨h, by simp [h, complete]⟩
  · exact .inl ⟨h, by simp [h, raiseError]⟩

/-- An `ENCODE` row runs `encode(command)` on its command (R68, R123). -/
theorem exec_of_command {i : Instr} {cmd : Command} (h : i.command = some cmd) (s : State) :
    exec i s = encodeCommand cmd s := by
  cases i <;> simp only [Instr.command, Option.some.injEq, reduceCtorEq] at h <;> subst h <;> rfl

/-- The operations that carry no command. -/
theorem command_none {i : Instr} (h : i.command = none) :
    (∃ c a, i = .bind c a) ∨ (∃ c, i = .take c) ∨ ∃ c, i = .illegal c := by
  cases i <;> simp_all [Instr.command]

/-- Everything an operation can do: be refused (a `BIND` operand that is not `ADDR_LEN` bits), raise an error and
write nothing, bind, hold a buffer, or hand one over. -/
theorem exec_cases (i : Instr) (s : State) :
    (i.wf s.cfg.addrLen = false ∧ ∃ r, exec i s = .refused r) ∨
      (∃ e, exec i s = .next (s.respond (.error e) [])) ∨
      (∃ c a, i = .bind c a ∧ addressWf s.cfg.addrLen a = true ∧ s.st = .unbound ∧
        exec i s = .next ((s.bindTo a).respond .ok [])) ∨
      (∃ cmd b, i.command = some cmd ∧ encodeBuffer cmd s = .ok b ∧ exec i s = .next ((s.hold b).respond .ok [])) ∨
      (∃ c, i = .take c ∧ s.st = .ready ∧ exec i s = .next (s.release.respond .ok s.buf)) := by
  cases hc : i.command with
  | some cmd =>
    rw [exec_of_command hc]
    rcases encodeCommand_cases cmd s with ⟨e, -, h⟩ | ⟨b, hb, h⟩
    · exact .inr (.inl ⟨e, h⟩)
    · exact .inr (.inr (.inr (.inl ⟨cmd, b, rfl, hb, h⟩)))
  | none =>
    rcases command_none hc with ⟨c, a, rfl⟩ | ⟨c, rfl⟩ | ⟨c, rfl⟩
    · rcases bindAddress_cases a s with ⟨hw, h⟩ | ⟨-, -, h⟩ | ⟨hw, hs, h⟩
      · exact .inl ⟨hw, h⟩
      · exact .inr (.inl ⟨_, h⟩)
      · exact .inr (.inr (.inl ⟨c, a, rfl, hw, hs, h⟩))
    · rcases takeBuffer_cases s with ⟨-, h⟩ | ⟨hs, h⟩
      · exact .inr (.inl ⟨_, h⟩)
      · exact .inr (.inr (.inr (.inr ⟨c, rfl, hs, h⟩)))
    · exact .inr (.inl ⟨_, rfl⟩)

/-- Everything a step can do. -/
theorem step_cases (s : State) :
    (s.ops = [] ∧ step s = .next (s.await [])) ∨
      (∃ rest, s.ops = .reset :: rest ∧ step s = .next (s.await rest).clear) ∨
      (∃ w a rest i, s.ops = .operation w a :: rest ∧ decode s.cfg.addrLen w a = .ok i ∧
        step s = exec i (s.await rest)) ∨
      ∃ r, step s = .refused r := by
  unfold step fetch
  split <;> rename_i h
  · split at h <;> simp_all
    split at h <;> simp_all
  · split at h <;> simp_all
    split at h <;> simp_all
  · exact .inr (.inr (.inr ⟨_, rfl⟩))

end Sys2Proof.Machine
end

