-- ==== Sys2Proof/Tests/Slice0.lean ====
section
/-! SUPPORT. The model's own tests. Expected results are those of spec/95_test_vectors.md (V and P numbers) or written
out from the encoding tables; the payloads and the address A1 are that file's test values. The witnesses at the end
meet the hypotheses of the statements. -/

namespace Sys2Proof.Tests

open Sys2Proof.Machine

/-! ### The test configurations (95_test_vectors.md section 2) -/

def testRaw (addrLen sampleRate baudRate : Nat) : RawConfig where
  addrLen := addrLen
  sampleRate := sampleRate
  baudRate := baudRate
  preamble := preambleReference
  pPwrPress := bitsOfNat 22 0x3FF800
  pPwrRelease := bitsOfNat 22 0x0007FF
  pFan0Press := bitsOfNat 22 0x2AAAAA
  pFan0Release := bitsOfNat 22 0x155555
  pFan1 := bitsOfNat 22 0x333333
  pFan2 := bitsOfNat 22 0x38E38E
  pFan3 := bitsOfNat 22 0x3C3C3C

theorem testRaw_wf (n sr br : Nat) : (testRaw (n + 1) sr br).wf = true := by
  have h1 : ((testRaw (n + 1) sr br).payloads.any fun p => p.length != payloadLen) = false :=
    show ((testRaw 1 0 0).payloads.any fun p => p.length != payloadLen) = false by decide
  have h2 : ((testRaw (n + 1) sr br).preamble :: (testRaw (n + 1) sr br).payloads).any (fun x => !allBits x) = false :=
    show ((testRaw 1 0 0).preamble :: (testRaw 1 0 0).payloads).any (fun x => !allBits x) = false by decide
  have h3 : (testRaw (n + 1) sr br).pPwrPress ≠ (testRaw (n + 1) sr br).pPwrRelease :=
    show bitsOfNat 22 0x3FF800 ≠ bitsOfNat 22 0x0007FF by decide
  have h4 : (testRaw (n + 1) sr br).addrLen ≠ 0 := Nat.succ_ne_zero n
  have h5 : (testRaw (n + 1) sr br).preamble.length = preambleLen := show preambleReference.length = preambleLen by decide
  simp [RawConfig.wf, RawConfig.defect, h1, h2, h3, h4, h5]

def testConfig (sampleRate baudRate : Nat) : Config := ⟨testRaw 41 sampleRate baudRate, testRaw_wf 40 _ _⟩

/-- The address A1. -/
def a1 : List Digit := bitsOfNat 41 0x1671E1F07E0

def unboundState (c : Config) : State := { cfg := c, st := .unbound, addr := none, buf := [], ops := [], rsp := none }

def boundState (c : Config) : State := { unboundState c with st := .bound, addr := some a1 }

/-- `Ready` with a small pending buffer. -/
def readyState (c : Config) : State := { boundState c with st := .ready, buf := [Sample.on, Sample.off] }

/-- The error a step answers, if it answers one. -/
def errorOf (o : StepResult) : Option SessionError :=
  match o with
  | .next { rsp := some { status := .error e, .. }, .. } => some e
  | _ => none

/-! ### Well-formedness: an ill-formed term for each check -/

theorem test_config_wf : (testRaw 41 2000000 2500).defect = none := by decide

theorem test_config_addrLen : (testRaw 0 1 1).defect = some .addrLenZero := by decide

theorem test_config_preamble : { testRaw 41 1 1 with preamble := [1, 0] }.defect = some .preambleLength := by decide

theorem test_config_payload : { testRaw 41 1 1 with pFan1 := [1, 1, 1] }.defect = some .payloadLength := by decide

theorem test_config_pwr : { testRaw 41 1 1 with pPwrRelease := bitsOfNat 22 0x3FF800 }.defect = some .pwrPressIsRelease := by
  decide

theorem test_config_binary : { testRaw 41 1 1 with pFan3 := List.replicate 22 2 }.defect = some .nonBinary := by decide

theorem test_bind_illformed_length : (Instr.bind 0 [1, 0]).wf 3 = false := by decide

theorem test_bind_illformed_digit : (Instr.bind 0 [1, 0, 2]).wf 3 = false := by decide

theorem test_bind_wellformed : (Instr.bind 0 [1, 0, 1]).wf 3 = true := by decide

/-! ### Decoding: a word of every constructor, bit by bit (30_encoding.md R65 to R69, 95 section 8) -/

theorem test_decode_bind : decode 41 0b00000 0x1671E1F07E0 = .ok (.bind 0
    [1, 0, 1, 1, 0, 0, 1, 1, 1, 0, 0, 0, 1, 1, 1, 1, 0, 0, 0, 0, 1,
     1, 1, 1, 1, 0, 0, 0, 0, 0, 1, 1, 1, 1, 1, 1, 0, 0, 0, 0, 0]) := by decide

theorem test_decode_bind_cmd_ignored : decode 2 0b00111 0b01 = .ok (.bind 7 [0, 1]) := by decide

theorem test_decode_bind_wide : decode 2 0b00000 0b100 = .error .opAddrTooWide := by decide

theorem test_decode_pwr : decode 41 0b01000 0 = .ok .encodePwr := by decide

theorem test_decode_fan0 : decode 41 0b01001 0 = .ok .encodeFan0 := by decide

theorem test_decode_fan1 : decode 41 0b01010 0 = .ok .encodeFan1 := by decide

theorem test_decode_fan2 : decode 41 0b01011 0 = .ok .encodeFan2 := by decide

theorem test_decode_fan3 : decode 41 0b01100 0 = .ok .encodeFan3 := by decide

theorem test_decode_pair : decode 41 0b01101 0 = .ok .encodePair := by decide

theorem test_decode_rsvd6 : decode 41 0b01110 0 = .ok .encodeRsvd6 := by decide

theorem test_decode_rsvd7 : decode 41 0b01111 0 = .ok .encodeRsvd7 := by decide

theorem test_decode_take : decode 41 0b10000 0 = .ok (.take 0) := by decide

theorem test_decode_take_last : decode 41 0b10111 99 = .ok (.take 7) := by decide

theorem test_decode_illegal : decode 41 0b11000 0 = .ok (.illegal 0) := by decide

theorem test_table_word : decodeTableWord 8 0x0B = some .encodeFan2 := by decide

theorem test_table_word_rejected : decodeTableWord 8 0x20 = none := by decide

/-- R70: the row chosen for a word carries the command `cmd_of` gives. -/
theorem test_rows_follow_cmd_of : ∀ c : CmdField, (encodeRow c).command = some (cmdOf c) := by decide

/-! ### The stages (95 sections 3 to 6) -/

/-- V5. -/
theorem test_frame_bits : [0, 1, 22, 23, 37, 38, 78, 79, 80, 83, 84, 105, 106, 167].map
    (fun j => (frame (testConfig 1 1) a1 (bitsOfNat 22 0x38E38E))[j]?.getD 9) =
      [1, 0, 1, 0, 0, 1, 0, 0, 1, 0, 1, 0, 0, 0] := by decide

/-- V1: 46 ones. -/
theorem test_frame_ones : ones (frame (testConfig 1 1) a1 (bitsOfNat 22 0x38E38E)) = 46 := by decide

/-- V6. -/
theorem test_frame_refused : checkedFrame (testConfig 1 1) a1 [1, 1, 1] = none := by decide

/-- V8. -/
theorem test_line_encode_separator :
    lineEncode separator = .ok [1, 0, 0, 1, 1, 0, 1, 0, 0, 1, 0, 0, 1, 0, 0] := by rfl

/-- V14. -/
theorem test_line_encode_invalid : lineEncode [0, 2, 1] = .error .invalidBit := by rfl

/-- V15, TBAD1 to TBAD4 and T2. -/
theorem test_rates : [(2000001, 2500), (1250, 2500), (2000000, 0), (0, 2500)].all
      (fun r => match samplesPerSymbol (testConfig r.1 r.2) with
        | .error .invalidRate => true
        | _ => false) = true ∧
    samplesPerSymbol (testConfig 5000 2500) = .ok 2 := ⟨by decide, by rfl⟩

/-- V16. -/
theorem test_expand : expand [1, 1, 0] 2 = [⟨1, 0⟩, ⟨1, 0⟩, ⟨1, 0⟩, ⟨1, 0⟩, ⟨0, 0⟩, ⟨0, 0⟩] := by decide

/-- V18: the first four bits of a frame at two samples a chip. -/
theorem test_first_samples :
    (expand (chipsOf ((frame (testConfig 5000 2500) a1 (bitsOfNat 22 0x38E38E)).take 4)) 2).map (fun x => x.re.toNat) =
      [1, 1, 1, 1, 0, 0, 1, 1, 0, 0, 0, 0, 1, 1, 1, 1, 0, 0, 1, 1, 0, 0, 0, 0] := by decide

/-! ### The operations (95 section 7) -/

/-- V22. -/
theorem test_bind_unbound : (execBind 0 a1 (unboundState (testConfig 1 1))) =
    .next { boundState (testConfig 1 1) with rsp := some { status := .ok, samples := [] } } := by rfl

/-- V25. -/
theorem test_bind_ready : errorOf (execBind 0 a1 (readyState (testConfig 1 1))) = some .alreadyBound := by decide

/-- V29. -/
theorem test_encodePwr_ready : errorOf (execEncodePwr (readyState (testConfig 1 1))) = some .transmissionInProgress := by
  decide

/-- V26's row for FanSpeed0. -/
theorem test_encodeFan0_unbound : errorOf (execEncodeFan0 (unboundState (testConfig 1 1))) = some .missingAddress := by
  decide

/-- V32. -/
theorem test_encodeFan1_ready : errorOf (execEncodeFan1 (readyState (testConfig 1 1))) = some .transmissionInProgress := by
  decide

/-- V37. -/
theorem test_encodeFan2_bad_rate : errorOf (execEncodeFan2 (boundState (testConfig 2000001 2500))) = some .invalidRate := by
  decide

/-- V38. -/
theorem test_encodeFan2_priority : errorOf (execEncodeFan2 (unboundState (testConfig 2000001 2500))) =
    some .missingAddress := by decide

/-- P2, second line. -/
theorem test_encodeFan3_unbound : errorOf (execEncodeFan3 (unboundState (testConfig 1 1))) = some .missingAddress := by
  decide

/-- V39. -/
theorem test_encodePair_priority : errorOf (execEncodePair (boundState (testConfig 2000001 2500))) =
    some .unsupportedCommand := by decide

theorem test_encodeRsvd6 : errorOf (execEncodeRsvd6 (unboundState (testConfig 1 1))) = some .unsupportedCommand := by
  decide

/-- V31. -/
theorem test_encodeRsvd7 : errorOf (execEncodeRsvd7 (boundState (testConfig 1 1))) = some .unsupportedCommand := by decide

/-- V36, with a small buffer. -/
theorem test_take_ready : execTake 0 (readyState (testConfig 1 1)) =
    .next { boundState (testConfig 1 1) with rsp := some { status := .ok, samples := [Sample.on, Sample.off] } } := by rfl

/-- V35. -/
theorem test_take_bound : errorOf (execTake 0 (boundState (testConfig 1 1))) = some .noPendingTransmission := by decide

/-- V40. -/
theorem test_illegal : errorOf (execIllegal 0 (readyState (testConfig 1 1))) = some .illegalOperation := by decide

/-- V41. -/
theorem test_reset_event : step { readyState (testConfig 1 1) with ops := [.reset] } =
    .next (unboundState (testConfig 1 1)) := by rfl

/-- P5, first line, as a step from the word. -/
theorem test_step_word : errorOf (step ((unboundState (testConfig 2000001 2500)).withFetchWord 8 0x0B)) =
    some .missingAddress := by decide

/-- A word placed at reset is the first operation that runs. -/
theorem test_reset_then_word : errorOf (step (State.reset.withFetchWord 8 0x10)) = some .noPendingTransmission := by
  decide

theorem test_unknown_transfer : step { unboundState (testConfig 1 1) with ops := [.unknownTransfer] } =
    .refused .unknownTransfer := by rfl

/-- P2, two lines of the listing. -/
theorem test_listing : readLine "0x10".toList = none ∧ readLine "  TAKE     ; nothing pending".toList =
      some (.operation (.take 0)) ∧
    readLine "ENCODE FanSpeed3 ; no address yet".toList = some (.operation .encodeFan3) ∧
    readLine "RESET".toList = some .reset := by decide

/-! ### Witnesses: the hypotheses of the statements can be met together -/

/-- The reference rates of 95 section 2 (T800). -/
def t800 : Config := testConfig 2000000 2500

theorem t800_rate : samplesPerSymbol t800 = .ok 800 := by rfl

theorem a1_wf : addressWf 41 a1 = true := by decide

theorem a1_allBits : allBits a1 = true := by decide

theorem boundState_inv : (boundState t800).Inv where
  unbound_iff := by simp [boundState]
  ready_iff := by simp [boundState, unboundState]
  buf_good := by simp [boundState]
  addr_wf := by intro a h; cases h; exact a1_wf

theorem unboundState_inv : (unboundState t800).Inv where
  unbound_iff := by simp [unboundState]
  ready_iff := by simp [unboundState]
  buf_good := by simp [unboundState]
  addr_wf := by simp [unboundState]

/-- The state `ENCODE FanSpeed2` leaves, for the statements about a completed `ENCODE`. -/
theorem encode_completes_from_bound : ∃ t, exec .encodeFan2 (boundState t800) = .next t ∧
    t.rsp = some { status := .ok, samples := [] } ∧ t.st = .ready := by
  obtain ⟨b, -, h⟩ := encodeCommand_completes (cmd := .fanSpeed2) (s := boundState t800) rfl rfl rfl a1_allBits t800_rate
  exact ⟨_, h, rfl, rfl⟩

/-- Meets DecodeOfEncodeGivesTheOperation, at both ends of a bus. -/
theorem witness_wellFormed : (Instr.bind 7 [1, 1, 1]).wf 3 = true ∧ (Instr.bind 0 [0, 0, 0]).wf 3 = true ∧
    Instr.encodePair.wf 3 = true := by decide

/-- Meets EncodeOfDecodeGivesTheWord and, with the last bus value that fits and the first that does not,
EveryWordDecodesAsListed and BindOperandIsUnpackedFromTheBus. -/
theorem witness_decode : decode 3 0b00101 7 = .ok (.bind 5 [1, 1, 1]) ∧ 7 < 2 ^ 3 ∧ opField 0b00101 = 0 ∧ 2 ^ 3 ≤ 8 ∧
    opField 0b10000 ≠ 0 := by decide

/-- Meets FrameIsItsFiveFields, FrameFieldPositions and PowerToggleFramesRepeatAndDiffer; the second payload meets
OnlyWholePayloadsAreFramed. -/
theorem witness_frame : t800.preamble = preambleReference ∧ a1.length = t800.addrLen ∧ t800.pFan2.length = 22 ∧
    ([1, 1, 1] : List Digit).length ≠ 22 ∧ payloads t800 .fanSpeed2 = .ok [t800.pFan2, t800.pFan2] := by
  exact ⟨rfl, by decide, by decide, by decide, rfl⟩

/-- Meets LineEncodeFollowsTheLookUpTable, LineEncodeLaws and InvalidBitExactlyOnNonBinaryInput. -/
theorem witness_lineEncode : allBits [0, 1] = true ∧ lineEncode [0, 1] = .ok [1, 0, 0, 1, 1, 0] ∧
    lineEncode [0, 2] = .error .invalidBit ∧ payloads t800 .powerToggle ≠ .error .unsupportedCommand := by
  exact ⟨rfl, rfl, rfl, by simp [payloads]⟩

/-- Meets SamplesPerSymbolIsTheExactQuotient, ExpandReplicatesEveryChip and ExpandLaws, at the smallest factor. -/
theorem witness_rate : samplesPerSymbol (testConfig 2500 2500) = .ok 1 ∧ 1 ≤ 1 ∧
    samplesPerSymbol (testConfig 0 2500) = .error .invalidRate := ⟨rfl, le_refl 1, rfl⟩

/-- Meets BufferLayout, BufferLengthAndOnSamples and FinalZeroRun. -/
theorem witness_encoded_buffer : Instr.encodeFan2.command = some .fanSpeed2 ∧ (boundState t800).addr = some a1 ∧
    addressWf (boundState t800).cfg.addrLen a1 = true ∧ (boundState t800).cfg.preamble = preambleReference ∧
    payloads (boundState t800).cfg .fanSpeed2 = .ok [t800.pFan2, t800.pFan2] ∧
    samplesPerSymbol (boundState t800).cfg = .ok 800 ∧
    ∃ t, exec .encodeFan2 (boundState t800) = .next t ∧ t.rsp = some { status := .ok, samples := [] } := by
  obtain ⟨t, h1, h2, -⟩ := encode_completes_from_bound
  exact ⟨rfl, rfl, a1_wf, rfl, rfl, t800_rate, t, h1, h2⟩

/-- Meets ReferenceBufferLengths and EncodeBuildsAndHoldsTheBuffer. -/
theorem witness_encode : (boundState t800).st = .bound ∧ (boundState t800).addr = some a1 ∧ allBits a1 = true ∧
    addressWf 41 a1 = true ∧ (boundState t800).cfg.addrLen = 41 ∧ samplesPerSymbol (boundState t800).cfg = .ok 800 ∧
    1 ≤ 800 ∧ 1 ≤ (boundState t800).cfg.baudRate ∧
    (boundState t800).cfg.sampleRate = 800 * (boundState t800).cfg.baudRate :=
  ⟨rfl, rfl, a1_allBits, a1_wf, rfl, t800_rate, by decide, by decide, by decide⟩

/-- Meets ConfigurationCheck from both sides. -/
theorem witness_config : (testRaw 41 0 0).wf = true ∧ ∃ c : Config, (testRaw 41 0 0).check = .ok c :=
  ⟨testRaw_wf 40 0 0, ⟨testRaw 41 0 0, testRaw_wf 40 0 0⟩, by rw [RawConfig.check, dif_pos (testRaw_wf 40 0 0)]⟩

/-- Meets BindWritesTheAddressOnce, in its clauses on a well-formed operand; witness_bind_refused meets the third. -/
theorem witness_bind : addressWf (unboundState t800).cfg.addrLen a1 = true ∧ (unboundState t800).st = .unbound ∧
    addressWf (readyState t800).cfg.addrLen a1 = true ∧ (readyState t800).st ≠ .unbound :=
  ⟨a1_wf, rfl, a1_wf, by decide⟩

/-- Meets BindRefusesOtherOperands: one element short, and of the right length with a 2. -/
theorem witness_bind_refused : (a1.drop 1).length ≠ (unboundState t800).cfg.addrLen ∧
    (2 :: a1.drop 1).length = (unboundState t800).cfg.addrLen ∧ allBits (2 :: a1.drop 1) = false := by decide

/-- Meets every branch of EncodeErrorPriority: unsupported, in progress, no address, bad rate, a non-binary address, and
none of them. -/
theorem witness_priority : Instr.encodePair.command = some .pair ∧ supported .pair = false ∧
    Instr.encodeFan2.command = some .fanSpeed2 ∧ supported .fanSpeed2 = true ∧ (readyState t800).st = .ready ∧
    (unboundState t800).st = .unbound ∧ { boundState t800 with addr := none }.addr = none ∧
    samplesPerSymbol (boundState (testConfig 2000001 2500)).cfg = .error .invalidRate ∧
    { boundState t800 with addr := some [2] }.addr = some [2] ∧ allBits [2] = false ∧
    samplesPerSymbol (boundState t800).cfg = .ok 800 ∧ (boundState t800).st = .bound :=
  ⟨rfl, rfl, rfl, rfl, rfl, rfl, rfl, rfl, rfl, rfl, t800_rate, rfl⟩

/-- Meets MissingAddressInUnbound. -/
theorem witness_missing : (unboundState t800).st = .unbound ∧ addressWf (unboundState t800).cfg.addrLen a1 = true ∧
    samplesPerSymbol (unboundState t800).cfg = .ok 800 ∧ (Instr.take 0).command = none ∧
    exec (.take 0) (unboundState t800) =
      .next { unboundState t800 with rsp := some { status := .error .noPendingTransmission, samples := [] } } :=
  ⟨rfl, a1_wf, t800_rate, rfl, rfl⟩

/-- Meets OneTransmissionInFlight and the first clause of TakeReturnsAndClears; the bound state meets the second. -/
theorem witness_ready : (readyState t800).st = .ready ∧ (readyState t800).addr = some a1 ∧ allBits a1 = true ∧
    samplesPerSymbol (readyState t800).cfg = .ok 800 ∧ (boundState t800).st ≠ .ready :=
  ⟨rfl, rfl, a1_allBits, t800_rate, by decide⟩

/-- Meets AnErrorLeavesNoTrace and OperationFrames. -/
theorem witness_error : exec (.illegal 3) (readyState t800) =
    .next { readyState t800 with rsp := some { status := .error .illegalOperation, samples := [] } } := rfl

/-- Meets TransitionTable, EveryStepKeepsTheInvariant, AddressIsKeptUntilReset and InvalidBitIsUnreachable: the
invariant, an address, and a next event that is no reset. -/
theorem witness_invariant : { boundState t800 with ops := [.operation 0b10000 0] }.Inv ∧
    (∀ rest, { boundState t800 with ops := [.operation 0b10000 0] }.ops ≠ .reset :: rest) ∧
    step { boundState t800 with ops := [.operation 0b10000 0] } =
      .next { boundState t800 with rsp := some { status := .error .noPendingTransmission, samples := [] } } :=
  ⟨⟨boundState_inv.1, boundState_inv.2, boundState_inv.3, boundState_inv.4⟩, fun _ h => (by cases h), by rfl⟩

/-- Meets BufferDoesNotDependOnHistory: two sessions that differ in what the host still has to issue. -/
theorem witness_history : (boundState t800).cfg = { boundState t800 with ops := [.reset] }.cfg ∧
    (boundState t800).addr = { boundState t800 with ops := [.reset] }.addr ∧ (boundState t800).st = .bound ∧
    (∃ t, exec .encodeFan2 (boundState t800) = .next t) ∧
    ∃ t, exec .encodeFan2 { boundState t800 with ops := [.reset] } = .next t := by
  obtain ⟨t, h, -⟩ := encode_completes_from_bound
  obtain ⟨b, -, h'⟩ := encodeCommand_completes (cmd := .fanSpeed2) (s := { boundState t800 with ops := [.reset] }) rfl rfl
    rfl a1_allBits t800_rate
  exact ⟨rfl, rfl, rfl, ⟨t, h⟩, _, h'⟩

/-- Meets RepeatedEncodeBuildsAnEqualBuffer. -/
theorem witness_repeat : ∃ t, Instr.encodeFan2.command = some .fanSpeed2 ∧ exec .encodeFan2 (boundState t800) = .next t ∧
    t.rsp = some { status := .ok, samples := [] } := by
  obtain ⟨t, h1, h2, -⟩ := encode_completes_from_bound
  exact ⟨t, rfl, h1, h2⟩

/-- Meets BadRateNeverMakesABuffer. -/
theorem witness_bad_rate : samplesPerSymbol (boundState (testConfig 2000001 2500)).cfg = .error .invalidRate ∧
    (boundState (testConfig 2000001 2500)).st = .bound ∧ (boundState (testConfig 2000001 2500)).addr = some a1 ∧
    step (boundState (testConfig 2000001 2500)) = .next (boundState (testConfig 2000001 2500)) := ⟨rfl, rfl, rfl, rfl⟩

/-- Meets StepRunsTheDecodedOperation and TheBlockNeverHangs. -/
theorem witness_step : { boundState t800 with ops := [.operation 0b10000 0] }.ops = [.operation 0b10000 0] ∧
    decode t800.addrLen 0b10000 0 = .ok (.take 0) ∧ eventWf t800.addrLen (.operation 0b10000 0) = true := ⟨rfl, rfl, rfl⟩

/-- Meets PlacedWordIsRun. -/
theorem witness_placed : State.reset.cfg.addrLen = 41 ∧ decodeTableWord 8 0x08 = some .encodePwr := by
  exact ⟨rfl, by decide⟩

/-- Meets ResetEventFromEveryState and OnlyResetReturnsToUnbound. -/
theorem witness_reset : { readyState t800 with ops := [.reset] }.ops = [.reset] ∧
    step { readyState t800 with ops := [.reset] } = .next (unboundState t800) := ⟨rfl, rfl⟩

/-- Meets OneResponsePerOperation: two operations and a reset. -/
theorem witness_events : ∀ e ∈ [HostEvent.operation 0b10000 0, .reset, .operation 0b00000 (2 ^ 41 - 1)],
    eventWf t800.addrLen e = true := by decide

/-- Meets both clauses of RequestTransmitHandsTheBufferOver. -/
theorem witness_transmit : (∃ b, encodeBuffer .fanSpeed2 (boundState t800) = .ok b) ∧
    encodeBuffer .pair (boundState t800) = .error .unsupportedCommand := by
  obtain ⟨b, h, -⟩ := encodeCommand_completes (cmd := .fanSpeed2) (s := boundState t800) rfl rfl rfl a1_allBits t800_rate
  exact ⟨⟨b, h⟩, rfl⟩

/-- Input pins at rest. -/
def quietPins : PinInput :=
  { rst := false, opValid := false, opWord := 0, opAddr := 0, rspReady := false, sReady := false, done := false }

/-- Meets SampleChannelCarriesTheBuffer: a stall between two samples. -/
theorem witness_stream :
    (∀ x ∈ [{ quietPins with sReady := true }, quietPins, { quietPins with sReady := true }],
      x.rst = false ∧ x.opValid = false) ∧
    ([{ quietPins with sReady := true }, quietPins, { quietPins with sReady := true }].countP fun x => x.sReady) =
      [Sample.on, Sample.off].length := by decide

/-- Meets PinsRealiseTheStep. -/
theorem witness_pins : { quietPins with opValid := true, opWord := 0b10000 }.rst = false ∧
    { quietPins with done := true }.done = true ∧ { quietPins with rspReady := true }.rspReady = true ∧
    step { readyState t800 with ops := [.operation 0b10000 0] } =
      .next { boundState t800 with rsp := some { status := .ok, samples := [Sample.on, Sample.off] } } :=
  ⟨rfl, rfl, rfl, rfl⟩

/-- Meets BusyBlockIgnoresTheOperationPins and PinResetAbandonsTheOperation. -/
theorem witness_busy : opReady { block := boundState t800, phase := .working 0b10000 0 } = false ∧
    { quietPins with rst := true }.rst = true := ⟨rfl, rfl⟩

/-- Meets both cases of StatusPinsShowTheState: the first and the last `ENCODE` word, and the words on either side. -/
theorem witness_status_pins : opField 0b01000 = 0b01 ∧ opField 0b01111 = 0b01 ∧ opField 0b00111 ≠ 0b01 ∧
    opField 0b10000 ≠ 0b01 := by decide

/-- R64: the pins of a block in `Ready` show 3 during a `TAKE` and 2 during an `ENCODE`; while samples are streamed the
block is in `Bound` already and they show 1. -/
theorem test_status_pins : statePins { block := readyState (testConfig 1 1), phase := .working 0b10000 0 } = 3 ∧
    statePins { block := readyState (testConfig 1 1), phase := .working 0b01011 0 } = 2 ∧
    statePins { block := boundState (testConfig 1 1), phase := .streaming Sample.off [] } = 1 := by decide

/-- Meets ListingReadsBack. -/
theorem witness_listing : writeInstr (.bind 0 [1, 0]) = some ("BIND ".toList ++ [quoteMark, '1', '0', quoteMark]) ∧
    allBits [1, 0] = true := ⟨rfl, rfl⟩

end Sys2Proof.Tests
end

