-- ==== Sys2Proof/Proofs/BitFramer.lean ====
section
/-! The fields of a frame, its length and its number of ones (41_bitframer.md R80, R83). -/

namespace Sys2Proof

@[simp] theorem ones_append (x y : List Digit) : ones (x ++ y) = ones x + ones y := List.count_append

@[simp] theorem ones_replicate_one (n : Nat) : ones (List.replicate n 1) = n := List.count_replicate_self

@[simp] theorem ones_replicate_zero (n : Nat) : ones (List.replicate n 0) = 0 := by
  simp [ones, List.count_replicate]

@[simp] theorem ones_gap : ones gap = 0 := ones_replicate_zero gapLen

@[simp] theorem ones_separator : ones separator = 1 := by decide

@[simp] theorem ones_preambleReference : ones preambleReference = 12 := by decide

namespace Machine

/-- R80, for operands of any length. -/
theorem frame_eq_fields (c : Config) (a p : List Digit) :
    frame c a p = c.preamble ++ a ++ [0, 1, 0, 0, 0] ++ p ++ List.replicate 62 0 := rfl

/-- The fixed fields of a frame have 38 + 5 + 62 = 105 bits, whatever the lengths of the operands are. -/
theorem frame_length_eq_add (c : Config) (a p : List Digit) :
    (frame c a p).length = 105 + a.length + p.length := by
  have hpre : c.preamble.length = 38 := config_preamble_length c
  simp only [frame_eq_fields, List.length_append, List.length_replicate, List.length_cons, List.length_nil, hpre]
  omega

/-- R83: the preamble has 12 ones, the separator 1 and the gap none. -/
theorem ones_frame {c : Config} (hc : c.preamble = preambleReference) (a p : List Digit) :
    ones (frame c a p) = 12 + ones a + 1 + ones p := by
  simp [frame, hc, Nat.add_assoc]

/-- Settles O7: the fields are the definition's own, and the example follows from the length and the number of ones
of a frame over any operands. -/
theorem frameIsItsFiveFields : Obligations.FrameIsItsFiveFields := by
  refine ⟨frame_eq_fields, fun c hc => ⟨?_, ?_⟩⟩
  · rw [frame_length_eq_add, List.length_replicate, List.length_replicate]
  · rw [ones_frame hc, ones_replicate_one, ones_replicate_zero]

end Machine
end Sys2Proof
end

