-- ==== Sys2Proof/Proofs/LineEncoder.lean ====
section
/-! The chip stream read element by element (42_lineencoder.md R91). -/

namespace Sys2Proof.Machine

/-- The two entries of `LUT` have the closed form `[1, b, 0]` (R90). -/
theorem chipPattern_eq_closedForm {b : Digit} (h : b = 0 ∨ b = 1) :
    (if b = 0 then [1, 0, 0] else [1, 1, 0] : List Chip) = [1, BitVec.ofNat 1 b, 0] := by
  rcases h with rfl | rfl <;> rfl

/-- Element `3 * j + c` of the chips of a bit string is element `c` of the pattern of bit `j`. -/
theorem chipsOf_getElem? (x : List Digit) (j : Nat) {c : Nat} (hc : c < 3) :
    (chipsOf x)[3 * j + c]? = x[j]?.bind fun b => ([1, BitVec.ofNat 1 b, 0] : List Chip)[c]? :=
  flatMap_getElem?_const (k := 3) (fun _ => rfl) x j c hc

/-- Settles O10: on bits the result is `chipsOf`, three chips per bit, whose closed form agrees with the table at every
bit of the input. -/
theorem lineEncodeFollowsTheLookUpTable : Obligations.LineEncodeFollowsTheLookUpTable := by
  refine ⟨fun bits hbits => ⟨chipsOf bits, lineEncode_ok hbits, chipsOf_length bits, fun j c hc => ?_⟩,
    rfl, lineEncode_ok rfl⟩
  rw [chipsOf_getElem? bits j hc]
  refine Option.bind_congr fun b hb => ?_
  have hbit : b = 0 ∨ b = 1 := allBits_iff.mp hbits b (List.mem_of_getElem? hb)
  rw [chipPattern_eq_closedForm hbit]

end Sys2Proof.Machine
end

