-- ==== Sys2Proof/Proofs/SampleExpander.lean ====
section
/-! The samples read element by element (43_sampleexpander.md R102). -/

namespace Sys2Proof.Machine

/-- R102: every element of the run of chip `m` is that chip, with no pulse shaping. -/
theorem expand_getElem? (chips : List Chip) {S : Nat} (m : Nat) {r : Nat} (hr : r < S) :
    (expand chips S)[S * m + r]? = chips[m]?.map fun c => { re := c, im := 0 } := by
  have hrun : (expand chips S)[S * m + r]? =
      chips[m]?.bind fun c => (List.replicate S ({ re := c, im := 0 } : Sample))[r]? :=
    flatMap_getElem?_const (fun _ => List.length_replicate) chips m r hr
  simp only [hrun, List.getElem?_replicate_of_lt hr, Option.map_eq_bind, Function.comp_def]

theorem expand_one (x : List Chip) : expand x 1 = x.map fun c => { re := c, im := 0 } :=
  List.map_eq_flatMap.symm

/-- Settles O14: the element law holds because every run has the same length `S`, and a run of one is the chip itself. -/
theorem expandReplicatesEveryChip : Obligations.ExpandReplicatesEveryChip :=
  ⟨fun chips S _ => ⟨expand_length chips S, fun m _ hr => expand_getElem? chips m hr⟩, expand_nil, expand_one, rfl⟩

end Sys2Proof.Machine
end

