-- ==== Sys2Proof/Proofs/CommandRepeater.lean ====
section
/-! The payload policy and the commands outside it (44_commandrepeater.md R111, R113). -/

namespace Sys2Proof.Machine

/-- Settles O16: every row of the table is a case of the definition; the rows with no payloads are the commands that
are not supported. -/
theorem payloadPolicy : Obligations.PayloadPolicy := fun c =>
  ⟨rfl, rfl, rfl, rfl, rfl, payloads_of_not_supported rfl c, fun _ => payloads_of_not_supported rfl c⟩

/-- R123 step 1, R150: the payloads are asked for before the state, the address and the rates are looked at. -/
theorem encodeBuffer_of_not_supported {cmd : Command} (h : supported cmd = false) (s : State) :
    encodeBuffer cmd s = .error .unsupportedCommand := by
  simp only [encodeBuffer, payloads_of_not_supported h s.cfg]

/-- R113: an `ENCODE` row of an unsupported command answers with the error and keeps the session. -/
theorem exec_of_not_supported {i : Instr} {cmd : Command} (hi : i.command = some cmd) (h : supported cmd = false)
    (s : State) : exec i s = .next (s.respond (.error .unsupportedCommand) []) := by
  simp only [exec_of_command hi, encodeCommand, encodeBuffer_of_not_supported h, raiseError_eq]

/-- Settles O31: each of the three words runs `ENCODE` of a command that is not supported. -/
theorem unsupportedCommandsAlwaysFail : Obligations.UnsupportedCommandsAlwaysFail := by
  refine ⟨rfl, fun s i hi => ?_⟩
  simp only [List.mem_cons, List.not_mem_nil, or_false] at hi
  rcases hi with rfl | rfl | rfl
  · exact exec_of_not_supported (cmd := .pair) rfl rfl s
  · exact exec_of_not_supported (cmd := .unknown 6) rfl rfl s
  · exact exec_of_not_supported (cmd := .unknown 7) rfl rfl s

end Sys2Proof.Machine
end

