-- ==== Sys2Proof/Proofs/TransmitSession.lean ====
section
/-! The operations of the session, state by state (45_transmitsession.md R120, R121, R127): one rule for each cell of
the transition table, and the table assembled from them. -/

namespace Sys2Proof.Machine

/-! ### BIND (R121) -/

theorem exec_bind_of_unbound {s : State} {a : List Digit} (ha : addressWf s.cfg.addrLen a = true)
    (hst : s.st = .unbound) (c : CmdField) : exec (.bind c a) s = .next ((s.bindTo a).respond .ok []) := by
  rcases bindAddress_cases a s with ⟨hw, -⟩ | ⟨-, hne, -⟩ | ⟨-, -, h⟩
  · simp [ha] at hw
  · exact absurd hst hne
  · exact h

theorem exec_bind_of_not_unbound {s : State} {a : List Digit} (ha : addressWf s.cfg.addrLen a = true)
    (hst : s.st ≠ .unbound) (c : CmdField) :
    exec (.bind c a) s = .next (s.respond (.error .alreadyBound) []) := by
  rcases bindAddress_cases a s with ⟨hw, -⟩ | ⟨-, -, h⟩ | ⟨-, hu, -⟩
  · simp [ha] at hw
  · exact h
  · exact absurd hu hst

/-- R44, U3: the length of the operand is looked at before its digits and before the state. -/
theorem exec_bind_of_length_ne {s : State} {a : List Digit} (h : a.length ≠ s.cfg.addrLen) (c : CmdField) :
    exec (.bind c a) s = .refused .addressLength :=
  if_pos h

/-- Settles O25: a well-formed operand leaves only the state to look at, and an operand of another length is refused
before it. -/
theorem bindWritesTheAddressOnce : Obligations.BindWritesTheAddressOnce :=
  ⟨rfl, fun c _ _ => ⟨fun ha hst => exec_bind_of_unbound ha hst c, fun ha hst => exec_bind_of_not_unbound ha hst c,
    fun h => exec_bind_of_length_ne h c⟩⟩

/-! ### TAKE (R127) -/

theorem exec_take_of_ready {s : State} (hst : s.st = .ready) (c : CmdField) :
    exec (.take c) s = .next (s.release.respond .ok s.buf) := by
  rcases takeBuffer_cases s with ⟨hne, -⟩ | ⟨-, h⟩
  · exact absurd hst hne
  · exact h

theorem exec_take_of_not_ready {s : State} (hst : s.st ≠ .ready) (c : CmdField) :
    exec (.take c) s = .next (s.respond (.error .noPendingTransmission) []) := by
  rcases takeBuffer_cases s with ⟨-, h⟩ | ⟨hr, -⟩
  · exact h
  · exact absurd hr hst

/-- Settles O33: a `TAKE` that completes ends in `Bound`, where the next one finds nothing pending. -/
theorem takeReturnsAndClears : Obligations.TakeReturnsAndClears := by
  refine fun c s => ⟨fun hst => ⟨_, exec_take_of_ready hst c, rfl, fun c' => ?_⟩,
    fun hst => exec_take_of_not_ready hst c⟩
  have hbound : (s.release.respond .ok s.buf).st ≠ .ready := by simp
  exact exec_take_of_not_ready hbound c'

/-! ### ENCODE (R123) and the order of its errors (R150) -/

theorem encodeBuffer_of_ready {cmd : Command} (hc : supported cmd = true) {s : State} (hst : s.st = .ready) :
    encodeBuffer cmd s = .error .transmissionInProgress := by
  obtain ⟨ps, hp⟩ := payloads_of_supported hc s.cfg
  simp [encodeBuffer, hp, hst]

theorem encodeBuffer_of_unbound {cmd : Command} (hc : supported cmd = true) {s : State} (hst : s.st = .unbound) :
    encodeBuffer cmd s = .error .missingAddress := by
  obtain ⟨ps, hp⟩ := payloads_of_supported hc s.cfg
  simp [encodeBuffer, hp, hst]

theorem encodeBuffer_of_bad_rate {cmd : Command} (hc : supported cmd = true) {s : State} {a : List Digit}
    (hst : s.st = .bound) (ha : s.addr = some a) (hS : samplesPerSymbol s.cfg = .error .invalidRate) :
    encodeBuffer cmd s = .error .invalidRate := by
  obtain ⟨ps, hp⟩ := payloads_of_supported hc s.cfg
  simp [encodeBuffer, hp, hst, ha, hS]

/-- The pad alone makes a buffer non-empty (R124). -/
theorem encodeBuffer_ne_nil {cmd : Command} {s : State} {b : List Sample} (h : encodeBuffer cmd s = .ok b) :
    b ≠ [] := by
  obtain ⟨ps, a, S, -, -, -, -, hb⟩ := encodeBuffer_ok h
  rcases buildBuffer_cases s.cfg ps a S with ⟨chips, hok⟩ | herr
  · obtain rfl : expand chips S ++ pad = b := by simpa [hok] using hb
    exact List.append_ne_nil_of_right_ne_nil _ pad_ne_nil
  · simp [herr] at hb

/-- An `ENCODE` whose computation fails answers with that error and keeps the session. -/
theorem exec_of_encodeBuffer_error {i : Instr} {cmd : Command} (hi : i.command = some cmd) {s : State}
    {e : SessionError} (h : encodeBuffer cmd s = .error e) : exec i s = .next (s.respond (.error e) []) := by
  simp only [exec_of_command hi, encodeCommand, h, raiseError_eq]

/-- In `Bound` only the rate decides whether a supported `ENCODE` completes. -/
theorem exec_encode_of_bound {i : Instr} {cmd : Command} (hi : i.command = some cmd) (hc : supported cmd = true)
    {s : State} {a : List Digit} (hst : s.st = .bound) (ha : s.addr = some a) (hab : allBits a = true) :
    (∃ b, b ≠ [] ∧ exec i s = .next ((s.hold b).respond .ok [])) ∨
      (samplesPerSymbol s.cfg = .error .invalidRate ∧ exec i s = .next (s.respond (.error .invalidRate) [])) := by
  rcases samplesPerSymbol_cases s.cfg with ⟨S, hS, -, -⟩ | hS
  · obtain ⟨b, hb, hexec⟩ := encodeCommand_completes hc hst ha hab hS
    exact .inl ⟨b, encodeBuffer_ne_nil hb, (exec_of_command hi s).trans hexec⟩
  · exact .inr ⟨hS, exec_of_encodeBuffer_error hi (encodeBuffer_of_bad_rate hc hst ha hS)⟩

/-! ### The reset event (R170) -/

theorem step_of_reset {s : State} {rest : List HostEvent} (h : s.ops = .reset :: rest) :
    step s = .next (s.await rest).clear := by
  simp only [step, fetch, h]

/-! ### The transition table (R120) -/

/-- Under the invariant a block in `Bound` has an address, and it is made of bits. -/
theorem State.Inv.address_of_bound {s : State} (hs : s.Inv) (hst : s.st = .bound) :
    ∃ a, s.addr = some a ∧ allBits a = true := by
  have hne : s.addr ≠ none := fun hnone => by simp [hs.unbound_iff.mpr hnone] at hst
  obtain ⟨a, ha⟩ := Option.ne_none_iff_exists'.mp hne
  exact ⟨a, ha, (addressWf_iff.mp (hs.addr_wf a ha)).2⟩

/-- Settles O36: each column is split along the session state, and each cell is the rule above for that operation in
that state; the invariant supplies the address of bits that `ENCODE` reads in `Bound`. -/
theorem transitionTable : Obligations.TransitionTable := by
  intro s hs raises
  refine ⟨fun c a ha => ?bind, fun i cmd hi hc => ?encode, fun i cmd hi hc => exec_of_not_supported hi hc s,
    fun c => ?take, fun c => raiseError_eq .illegalOperation s, fun rest h => step_of_reset h⟩
  case bind =>
    split
    next hst => exact exec_bind_of_unbound ha hst c
    next hst => exact exec_bind_of_not_unbound ha (by simp [hst]) c
    next hst => exact exec_bind_of_not_unbound ha (by simp [hst]) c
  case encode =>
    split
    next hst => exact exec_of_encodeBuffer_error hi (encodeBuffer_of_unbound hc hst)
    next hst =>
      obtain ⟨a, ha, hab⟩ := hs.address_of_bound hst
      exact exec_encode_of_bound hi hc hst ha hab
    next hst => exact exec_of_encodeBuffer_error hi (encodeBuffer_of_ready hc hst)
  case take =>
    split
    next hst => exact exec_take_of_not_ready (by simp [hst]) c
    next hst => exact exec_take_of_not_ready (by simp [hst]) c
    next hst => exact exec_take_of_ready hst c

end Sys2Proof.Machine
end

