-- ==== Sys2Proof/Proofs/Exceptions.lean ====
section
/-! The errors of the session: what an operation that raised leaves behind, and how the host recovers from a missing
address or a pending buffer (60_exceptions.md R142, R146, R148). -/

namespace Sys2Proof.Machine

/-! ### What an error leaves behind (R146) -/

/-- When an outcome is known to answer with a status and samples, they are the response that is read. -/
theorem eq_respond_of_next {o : StepResult} {t u : State} {status : Status}
    {samples : List Sample} {r : Response} (ho : o = .next (u.respond status samples)) (ht : o = .next t)
    (hr : t.rsp = some r) : t = u.respond status samples ∧ r = { status := status, samples := samples } := by
  obtain rfl : u.respond status samples = t := by simpa [ho] using ht
  exact ⟨rfl, (by simpa using hr : _ = r).symm⟩

/-- An operation that raised wrote the response and nothing else: the three ways to write the session answer `ok`. -/
theorem eq_respond_of_raised {i : Instr} {s t : State} {r : Response} {e : SessionError} (ht : exec i s = .next t)
    (hr : t.rsp = some r) (he : r.status = .error e) : t = s.respond (.error e) [] ∧ r.samples = [] := by
  rcases exec_cases i s with ⟨-, x, h⟩ | ⟨e', h⟩ | ⟨c, a, -, -, -, h⟩ | ⟨cmd, b, -, -, h⟩ | ⟨c, -, -, h⟩
  · simp [h] at ht
  · obtain ⟨rfl, rfl⟩ := eq_respond_of_next h ht hr
    obtain rfl : e' = e := by simpa using he
    exact ⟨rfl, rfl⟩
  all_goals
    obtain ⟨-, rfl⟩ := eq_respond_of_next h ht hr
    simp at he

/-- Settles O34: a response is no part of `(ST, ADDR, BUF)`. -/
theorem anErrorLeavesNoTrace : Obligations.AnErrorLeavesNoTrace := by
  intro i s t r e ht hr he
  obtain ⟨rfl, hsamples⟩ := eq_respond_of_raised ht hr he
  exact ⟨rfl, rfl, rfl, rfl, rfl, hsamples⟩

/-! ### The five supported rows -/

theorem command_of_supported_row {i : Instr}
    (hi : i ∈ [Instr.encodePwr, .encodeFan0, .encodeFan1, .encodeFan2, .encodeFan3]) :
    ∃ cmd, i.command = some cmd ∧ supported cmd = true := by
  simp only [List.mem_cons, List.not_mem_nil, or_false] at hi
  rcases hi with rfl | rfl | rfl | rfl | rfl
  all_goals exact ⟨_, rfl, rfl⟩

/-- `encodeCommand_completes`, for the row that carries the command. -/
theorem exec_encode_of_good_rate {i : Instr} {cmd : Command} (hi : i.command = some cmd) (hc : supported cmd = true)
    {s : State} {a : List Digit} {S : Nat} (hst : s.st = .bound) (ha : s.addr = some a) (hab : allBits a = true)
    (hS : samplesPerSymbol s.cfg = .ok S) : ∃ b, exec i s = .next ((s.hold b).respond .ok []) := by
  obtain ⟨b, -, h⟩ := encodeCommand_completes hc hst ha hab hS
  exact ⟨b, (exec_of_command hi s).trans h⟩

/-! ### A missing address (R142) -/

/-- Without a command an operation answers `ok` or with the one error of its kind. -/
theorem status_of_command_none {i : Instr} {s t : State} {r : Response} (hi : i.command = none)
    (ht : exec i s = .next t) (hr : t.rsp = some r) :
    r.status = .ok ∨ r.status = .error .alreadyBound ∨ r.status = .error .noPendingTransmission ∨
      r.status = .error .illegalOperation := by
  rcases command_none hi with ⟨c, a, rfl⟩ | ⟨c, rfl⟩ | ⟨c, rfl⟩
  · rcases bindAddress_cases a s with ⟨-, x, h⟩ | ⟨-, -, h⟩ | ⟨-, -, h⟩
    · cases h.symm.trans ht
    · simp [(eq_respond_of_next h ht hr).2]
    · simp [(eq_respond_of_next h ht hr).2]
  · rcases takeBuffer_cases s with ⟨-, h⟩ | ⟨-, h⟩
    · simp [(eq_respond_of_next h ht hr).2]
    · simp [(eq_respond_of_next h ht hr).2]
  · simp [(eq_respond_of_next (raiseError_eq .illegalOperation s) ht hr).2]

/-- Settles O29: the `BIND` leaves `Bound` and the address of bits that the `ENCODE` then reads. -/
theorem missingAddressInUnbound : Obligations.MissingAddressInUnbound := by
  refine ⟨rfl, fun s hst i hi => ?_, fun i s t r hi ht hr hstatus => ?_⟩
  · obtain ⟨cmd, hcmd, hsup⟩ := command_of_supported_row hi
    refine ⟨exec_of_encodeBuffer_error hcmd (encodeBuffer_of_unbound hsup hst), fun c a S ha hS => ?_⟩
    obtain ⟨b, hencode⟩ := exec_encode_of_good_rate (s := (s.bindTo a).respond .ok []) hcmd hsup rfl rfl
      (addressWf_iff.mp ha).2 hS
    exact ⟨_, _, exec_bind_of_unbound ha hst c, hencode, rfl, rfl⟩
  · simpa [hstatus] using status_of_command_none hi ht hr

/-! ### A pending buffer (R148, R128) -/

/-- Settles O30: the failed `ENCODE` leaves `Ready`, so the `TAKE` finds the buffer, and it ends in `Bound`, where the
`ENCODE` completes. -/
theorem oneTransmissionInFlight : Obligations.OneTransmissionInFlight := by
  refine ⟨rfl, fun s hst i hi => ?_⟩
  obtain ⟨cmd, hcmd, hsup⟩ := command_of_supported_row hi
  refine ⟨_, exec_of_encodeBuffer_error hcmd (encodeBuffer_of_ready hsup hst), rfl, fun c => ?_⟩
  refine ⟨_, exec_take_of_ready hst c, rfl, fun a S ha hab hS => ?_⟩
  obtain ⟨b, hencode⟩ := exec_encode_of_good_rate
    (s := (s.respond (.error .transmissionInProgress) []).release.respond .ok s.buf) hcmd hsup rfl ha hab hS
  exact ⟨_, hencode, rfl, rfl⟩

end Sys2Proof.Machine
end

