-- ==== Sys2Proof/Proofs/Decoder.lean ====
section
/-! The decoder and the encoder as inverses of each other, and the decoding table (30_encoding.md R65 to R70,
20_memory.md R43). -/

namespace Sys2Proof

/-! ### The decoder, one rule for each value of `OP` (R67) -/

theorem opField_cases (w : OpWord) : opField w = 0b00 ∨ opField w = 0b01 ∨ opField w = 0b10 ∨ opField w = 0b11 := by
  revert w; decide

theorem decode_of_op_bind {n : Nat} {w : OpWord} {a : Nat} (hop : opField w = 0b00#2) (ha : a < 2 ^ n) :
    decode n w a = .ok (.bind (cmdField w) (bitsOfNat n a)) := by
  simp [decode, hop, ha]

theorem decode_of_op_bind_wide {n : Nat} {w : OpWord} {a : Nat} (hop : opField w = 0b00#2) (ha : 2 ^ n ≤ a) :
    decode n w a = .error .opAddrTooWide := by
  simp [decode, hop, ha]

theorem decode_of_op_encode {w : OpWord} (hop : opField w = 0b01#2) (n a : Nat) :
    decode n w a = .ok (encodeRow (cmdField w)) := by
  simp [decode, hop]

theorem decode_of_op_take {w : OpWord} (hop : opField w = 0b10#2) (n a : Nat) :
    decode n w a = .ok (.take (cmdField w)) := by
  simp [decode, hop]

theorem decode_of_op_illegal {w : OpWord} (hop : opField w = 0b11#2) (n a : Nat) :
    decode n w a = .ok (.illegal (cmdField w)) := by
  simp [decode, hop]

/-- A word is its two fields, for a known `OP`. -/
theorem eq_append_of_opField {w : OpWord} {o : BitVec 2} (hop : opField w = o) : o ++ cmdField w = w :=
  hop ▸ opField_append_cmdField w

/-! ### The rows of `ENCODE` (R68) -/

theorem encodeRow_command (c : CmdField) : (encodeRow c).command = some (cmdOf c) := by
  revert c; decide

theorem encodeWord_encodeRow (c : CmdField) : encodeWord (encodeRow c) = 0b01#2 ++ c := by
  revert c; decide

/-- An operation with a command is a row of `ENCODE`: no bit of its word is free, and it leaves the bus at 0. -/
theorem encodeRow_of_command {i : Instr} {cmd : Command} (h : i.command = some cmd) :
    ∃ c, encodeRow c = i ∧ encodeWord i = 0b01#2 ++ c ∧ encodeAddr i = 0 := by
  refine ⟨cmdField (encodeWord i), ?_⟩
  cases i <;> simp only [Instr.command, reduceCtorEq] at h <;> exact ⟨rfl, rfl, rfl⟩

/-- R44: only a `BIND` can be ill-formed. -/
theorem wf_of_command {i : Instr} {cmd : Command} (h : i.command = some cmd) (n : Nat) : i.wf n = true := by
  cases i <;> simp only [Instr.command, reduceCtorEq] at h <;> rfl

/-! ### Both directions (R43, R65 to R70) -/

/-- Settles O1: the word of a `BIND`, a `TAKE` or an illegal operation holds its `CMD` field below the `OP` of its
kind, and the bus value of a `BIND` unpacks to the operand it was packed from. -/
theorem decodeOfEncodeGivesTheOperation : Obligations.DecodeOfEncodeGivesTheOperation := by
  intro n i hwf
  cases hcmd : i.command with
  | some cmd =>
    obtain ⟨c, hrow, hword, haddr⟩ := encodeRow_of_command hcmd
    rw [hword, haddr, decode_of_op_encode (opField_append _ _), cmdField_append, hrow]
    exact ⟨Nat.two_pow_pos n, rfl⟩
  | none =>
    rcases Machine.command_none hcmd with ⟨c, a, rfl⟩ | ⟨c, rfl⟩ | ⟨c, rfl⟩
    · obtain ⟨rfl, hbits⟩ := addressWf_iff.mp hwf
      have hfits : natOfBits a < 2 ^ a.length := natOfBits_lt hbits
      refine ⟨hfits, ?_⟩
      rw [encodeWord, encodeAddr, decode_of_op_bind (opField_append _ _) hfits, cmdField_append,
        bitsOfNat_natOfBits hbits]
    · refine ⟨Nat.two_pow_pos n, ?_⟩
      rw [encodeWord, decode_of_op_take (opField_append _ _), cmdField_append]
    · refine ⟨Nat.two_pow_pos n, ?_⟩
      rw [encodeWord, decode_of_op_illegal (opField_append _ _), cmdField_append]

/-- Settles O2: for each `OP` the decoded operation keeps the `CMD` field, and the operand of a `BIND` packs to the bus
value it was unpacked from. -/
theorem encodeOfDecodeGivesTheWord : Obligations.EncodeOfDecodeGivesTheWord := by
  intro n w a i hdec
  rcases opField_cases w with hop | hop | hop | hop
  · rcases lt_or_ge a (2 ^ n) with ha | ha
    · obtain rfl : Instr.bind (cmdField w) (bitsOfNat n a) = i := by simpa [decode_of_op_bind hop ha] using hdec
      exact ⟨addressWf_bitsOfNat n a, eq_append_of_opField hop, fun _ => natOfBits_bitsOfNat ha⟩
    · simp [decode_of_op_bind_wide hop ha] at hdec
  · obtain rfl : encodeRow (cmdField w) = i := by simpa [decode_of_op_encode hop] using hdec
    exact ⟨wf_of_command (encodeRow_command _) n, (encodeWord_encodeRow _).trans (eq_append_of_opField hop),
      fun h => by simp [h] at hop⟩
  · obtain rfl : Instr.take (cmdField w) = i := by simpa [decode_of_op_take hop] using hdec
    exact ⟨rfl, eq_append_of_opField hop, fun h => by simp [h] at hop⟩
  · obtain rfl : Instr.illegal (cmdField w) = i := by simpa [decode_of_op_illegal hop] using hdec
    exact ⟨rfl, eq_append_of_opField hop, fun h => by simp [h] at hop⟩

/-- Settles O4: `OP` alone decides whether the bus is read; `bitsOfNat` puts the top bit of the bus first. -/
theorem bindOperandIsUnpackedFromTheBus : Obligations.BindOperandIsUnpackedFromTheBus := by
  refine fun n w a => ⟨fun hop ha => ?fits, fun hop ha => decode_of_op_bind_wide hop ha, fun hop b => ?ignored⟩
  case fits =>
    exact ⟨bitsOfNat n a, decode_of_op_bind hop ha, bitsOfNat_length n a, fun i hi => bitsOfNat_getElem? hi⟩
  case ignored =>
    rcases opField_cases w with h | h | h | h
    · exact absurd h hop
    · simp only [decode_of_op_encode h]
    · simp only [decode_of_op_take h]
    · simp only [decode_of_op_illegal h]

/-! ### The table of the 32 words (95_test_vectors.md section 8) -/

theorem opField_eq_bind_iff {w : OpWord} : opField w = 0b00 ↔ w.toNat < 0x08 := by
  revert w; decide

/-- Settles O3: `OP` settles the first row, and what is left of the table is a list of words without operands, which is
compared word by word. -/
theorem everyWordDecodesAsListed : Obligations.EveryWordDecodesAsListed := by
  intro n w a ha
  by_cases hop : opField w = 0b00
  · rw [if_pos (opField_eq_bind_iff.mp hop), decode_of_op_bind hop ha]
  · rw [if_neg (mt opField_eq_bind_iff.mpr hop), decode, if_neg hop]
    clear ha
    revert w
    decide

/-- Settles O5. -/
theorem sampleWordsDecode : Obligations.SampleWordsDecode := by
  unfold Obligations.SampleWordsDecode
  decide

/-- Settles O6: the fixed bits of a row hold for every value of its free bits. -/
theorem everyOperationHasItsTableRow : Obligations.EveryOperationHasItsTableRow
  | .bind c a => Laws.TableRow.bind c a
  | .encodePwr => Laws.TableRow.encodePwr
  | .encodeFan0 => Laws.TableRow.encodeFan0
  | .encodeFan1 => Laws.TableRow.encodeFan1
  | .encodeFan2 => Laws.TableRow.encodeFan2
  | .encodeFan3 => Laws.TableRow.encodeFan3
  | .encodePair => Laws.TableRow.encodePair
  | .encodeRsvd6 => Laws.TableRow.encodeRsvd6
  | .encodeRsvd7 => Laws.TableRow.encodeRsvd7
  | .take c => Laws.TableRow.take c
  | .illegal c => Laws.TableRow.illegal c

end Sys2Proof
end

