-- ==== Sys2Proof/Proofs/Operations.lean ====
section
/-! What an operation can leave behind, the order of the errors of `ENCODE`, and what each operation keeps
(45_transmitsession.md R121 to R127, 60_exceptions.md R150). -/

namespace Sys2Proof.Machine

/-- `exec_cases` for an operation that answers: the error, or one of the three ways to write the session. -/
theorem exec_next_cases {i : Instr} {s t : State} (h : exec i s = .next t) :
    (∃ e, t = s.respond (.error e) []) ∨
      (∃ c a, i = .bind c a ∧ addressWf s.cfg.addrLen a = true ∧ s.st = .unbound ∧
        t = (s.bindTo a).respond .ok []) ∨
      (∃ cmd b, i.command = some cmd ∧ encodeBuffer cmd s = .ok b ∧ t = (s.hold b).respond .ok []) ∨
      (∃ c, i = .take c ∧ s.st = .ready ∧ t = s.release.respond .ok s.buf) := by
  rcases exec_cases i s with ⟨-, x, h'⟩ | ⟨e, h'⟩ | ⟨c, a, hi, ha, hst, h'⟩ | ⟨cmd, b, hi, hb, h'⟩ | ⟨c, hi, hst, h'⟩
  · cases h'.symm.trans h
  · cases h'.symm.trans h
    exact .inl ⟨e, rfl⟩
  · cases h'.symm.trans h
    exact .inr (.inl ⟨c, a, hi, ha, hst, rfl⟩)
  · cases h'.symm.trans h
    exact .inr (.inr (.inl ⟨cmd, b, hi, hb, rfl⟩))
  · cases h'.symm.trans h
    exact .inr (.inr (.inr ⟨c, hi, hst, rfl⟩))

/-- Every operation that answers keeps the configuration and the host's events, and makes a response. -/
theorem exec_next_keeps {i : Instr} {s t : State} (h : exec i s = .next t) :
    t.cfg = s.cfg ∧ t.ops = s.ops ∧ ∃ r, t.rsp = some r := by
  rcases exec_next_cases h with ⟨e, rfl⟩ | ⟨c, a, -, -, -, rfl⟩ | ⟨cmd, b, -, -, rfl⟩ | ⟨c, -, -, rfl⟩
  all_goals exact ⟨rfl, rfl, _, rfl⟩

/-- An `ENCODE` that answers raised an error, or holds the buffer it computed. -/
theorem exec_encode_next_cases {i : Instr} {cmd : Command} {s t : State} (hi : i.command = some cmd)
    (h : exec i s = .next t) :
    (∃ e, encodeBuffer cmd s = .error e ∧ t = s.respond (.error e) []) ∨
      ∃ b, encodeBuffer cmd s = .ok b ∧ t = (s.hold b).respond .ok [] := by
  rw [exec_of_command hi] at h
  rcases encodeCommand_cases cmd s with ⟨e, he, h'⟩ | ⟨b, hb, h'⟩
  · cases h'.symm.trans h
    exact .inl ⟨e, he, rfl⟩
  · cases h'.symm.trans h
    exact .inr ⟨b, hb, rfl⟩

/-- An `ENCODE` that answers `OK` holds the buffer it computed. -/
theorem eq_hold_of_encode_ok {i : Instr} {cmd : Command} {s t : State} {samples : List Sample}
    (hi : i.command = some cmd) (h : exec i s = .next t) (hr : t.rsp = some { status := .ok, samples := samples }) :
    ∃ b, encodeBuffer cmd s = .ok b ∧ t = (s.hold b).respond .ok [] := by
  rcases exec_encode_next_cases hi h with ⟨e, -, rfl⟩ | hb
  · simp at hr
  · exact hb

/-- An `ENCODE` whose computation answers a buffer holds it. -/
theorem exec_of_encodeBuffer_ok {i : Instr} {cmd : Command} (hi : i.command = some cmd) {s : State}
    {b : List Sample} (h : encodeBuffer cmd s = .ok b) : exec i s = .next ((s.hold b).respond .ok []) := by
  simp only [exec_of_command hi, encodeCommand, h, complete_eq]

/-! ### The order of the errors of `ENCODE` (R150) -/

/-- R81, log 14: BitFramer asks for the address itself. -/
theorem encodeBuffer_of_no_address {cmd : Command} (hc : supported cmd = true) {s : State} (hst : s.st = .bound)
    (ha : s.addr = none) : encodeBuffer cmd s = .error .missingAddress := by
  obtain ⟨ps, hp⟩ := payloads_of_supported hc s.cfg
  simp [encodeBuffer, hp, hst, ha]

theorem payloads_ne_nil {c : Config} {cmd : Command} {ps : List (List Digit)} (h : payloads c cmd = .ok ps) :
    ps ≠ [] := by
  rcases payloads_cases c cmd with ⟨qs, hq, hlen, -⟩ | he
  · obtain rfl : qs = ps := Except.ok.inj (hq.symm.trans h)
    rintro rfl
    simp at hlen
  · cases he.symm.trans h

/-- Every command has a payload, so its frames hold the address, and one bad digit of it stops the line encoder. -/
theorem encodeBuffer_of_not_bits {cmd : Command} (hc : supported cmd = true) {s : State} {a : List Digit} {S : Nat}
    (hst : s.st = .bound) (ha : s.addr = some a) (hS : samplesPerSymbol s.cfg = .ok S) (hbits : allBits a = false) :
    encodeBuffer cmd s = .error .invalidBit := by
  obtain ⟨ps, hp⟩ := payloads_of_supported hc s.cfg
  obtain ⟨p, rest, rfl⟩ := List.exists_cons_of_ne_nil (payloads_ne_nil hp)
  have hframes : allBits (framesOf s.cfg (p :: rest) a).flatten = false := by simp [framesOf, frame, hbits]
  rw [encodeBuffer_eq hp hst ha hS, buildBuffer, lineEncode_error hframes]

/-- With nothing pending and no address missing the block is in `Bound` and has one. -/
theorem bound_and_address_of_not_missing {s : State} (hready : s.st ≠ .ready)
    (hmissing : ¬ (s.st = .unbound ∨ s.addr = none)) : s.st = .bound ∧ ∃ a, s.addr = some a := by
  obtain ⟨hunbound, haddr⟩ := not_or.mp hmissing
  refine ⟨?_, Option.ne_none_iff_exists'.mp haddr⟩
  cases hst : s.st with
  | unbound => exact absurd hst hunbound
  | bound => rfl
  | ready => exact absurd hst hready

/-- Settles O28: each place in the order has its rule, and with none of the errors left the `ENCODE` completes. -/
theorem encodeErrorPriority : Obligations.EncodeErrorPriority := by
  intro i cmd s hi raises
  cases hc : supported cmd with
  | false =>
    rw [if_pos rfl]
    exact exec_of_not_supported hi hc s
  | true =>
    rw [if_neg (by decide)]
    split_ifs with hready hmissing hrate hbad
    · exact exec_of_encodeBuffer_error hi (encodeBuffer_of_ready hc hready)
    · cases hst : s.st with
      | unbound => exact exec_of_encodeBuffer_error hi (encodeBuffer_of_unbound hc hst)
      | bound =>
        have ha : s.addr = none := by simpa [hst] using hmissing
        exact exec_of_encodeBuffer_error hi (encodeBuffer_of_no_address hc hst ha)
      | ready => exact absurd hst hready
    · obtain ⟨hst, a, ha⟩ := bound_and_address_of_not_missing hready hmissing
      exact exec_of_encodeBuffer_error hi (encodeBuffer_of_bad_rate hc hst ha hrate)
    · obtain ⟨S, hS, -⟩ := (samplesPerSymbol_cases s.cfg).resolve_right hrate
      obtain ⟨a, ha, hbits⟩ := hbad
      have hst := (bound_and_address_of_not_missing hready hmissing).1
      exact exec_of_encodeBuffer_error hi (encodeBuffer_of_not_bits hc hst ha hS hbits)
    · obtain ⟨S, hS, -⟩ := (samplesPerSymbol_cases s.cfg).resolve_right hrate
      obtain ⟨hst, a, ha⟩ := bound_and_address_of_not_missing hready hmissing
      have hbits : allBits a = true := by simpa [ha] using hbad
      exact exec_encode_of_good_rate hi hc hst ha hbits hS

/-- R144: with an address of bits `ENCODE` never computes `InvalidBitError`. -/
theorem encodeBuffer_ne_invalidBit (cmd : Command) {s : State} (hbits : ∀ a, s.addr = some a → allBits a = true) :
    encodeBuffer cmd s ≠ .error .invalidBit := by
  cases hc : supported cmd with
  | false => simp [encodeBuffer_of_not_supported hc]
  | true =>
    cases hst : s.st with
    | unbound => simp [encodeBuffer_of_unbound hc hst]
    | ready => simp [encodeBuffer_of_ready hc hst]
    | bound =>
      cases ha : s.addr with
      | none => simp [encodeBuffer_of_no_address hc hst ha]
      | some a =>
        rcases samplesPerSymbol_cases s.cfg with ⟨S, hS, -, -⟩ | hS
        · obtain ⟨b, hb, -⟩ := encodeCommand_completes hc hst ha (hbits a ha) hS
          simp [hb]
        · simp [encodeBuffer_of_bad_rate hc hst ha hS]

/-! ### What an operation refuses, ignores and keeps -/

/-- Settles O26: the length is looked at first, then the digits. -/
theorem bindRefusesOtherOperands : Obligations.BindRefusesOtherOperands := by
  refine fun c a s => ⟨fun h => exec_bind_of_length_ne h c, fun hlen hbits => ?_⟩
  have hrun : exec (.bind c a) s = bindAddress a s := rfl
  simp [hrun, bindAddress, hlen, hbits]

/-- Settles O32. -/
theorem illegalWordAnswersIllegalOperation : Obligations.IllegalWordAnswersIllegalOperation :=
  ⟨rfl, fun _ s => raiseError_eq .illegalOperation s⟩

/-- Settles O37: the three meanings do not name the field. -/
theorem cmdFieldIsIgnored : Obligations.CmdFieldIsIgnored :=
  fun _ _ _ _ => ⟨rfl, rfl, rfl⟩

/-- Settles O35: an error writes no state element, and each of the other outcomes belongs to one kind of operation. -/
theorem operationFrames : Obligations.OperationFrames := by
  intro i s t h
  obtain ⟨hcfg, hops, -⟩ := exec_next_keeps h
  refine ⟨hcfg, hops, ?_⟩
  rcases exec_next_cases h with ⟨e, rfl⟩ | ⟨c, a, rfl, -, -, rfl⟩ | ⟨cmd, b, hi, hb, rfl⟩ | ⟨c, rfl, -, rfl⟩
  · simp
  · simp [Instr.command]
  · obtain ⟨-, -, -, -, hst, -⟩ := encodeBuffer_ok hb
    refine ⟨?_, ?_, ?_, ?_⟩
    · rintro c a rfl
      simp [Instr.command] at hi
    · simp [hst]
    · rintro c rfl
      simp [Instr.command] at hi
    · rintro c rfl
      simp [Instr.command] at hi
  · simp [Instr.command]

/-! ### What a built buffer depends on (R124) -/

/-- `ENCODE` reads the configuration, the session state and the address. -/
theorem encodeBuffer_congr (cmd : Command) {s s' : State} (hcfg : s.cfg = s'.cfg) (hst : s.st = s'.st)
    (haddr : s.addr = s'.addr) : encodeBuffer cmd s = encodeBuffer cmd s' := by
  simp only [encodeBuffer, hcfg, hst, haddr]

/-- Settles O38: both sessions compute the same result, an error or a buffer. -/
theorem bufferDoesNotDependOnHistory : Obligations.BufferDoesNotDependOnHistory := by
  intro i cmd s s' t t' hi hcfg haddr hst hst' ht ht'
  have hsame : encodeBuffer cmd s = encodeBuffer cmd s' := encodeBuffer_congr cmd hcfg (hst.trans hst'.symm) haddr
  cases hb : encodeBuffer cmd s with
  | error e =>
    cases (exec_of_encodeBuffer_error hi hb).symm.trans ht
    cases (exec_of_encodeBuffer_error hi (hsame ▸ hb)).symm.trans ht'
    simp [hst, hst']
  | ok b =>
    cases (exec_of_encodeBuffer_ok hi hb).symm.trans ht
    cases (exec_of_encodeBuffer_ok hi (hsame ▸ hb)).symm.trans ht'
    simp

/-- Settles O39: the `TAKE` goes back to `Bound` with the address and the configuration of the first `ENCODE`. -/
theorem repeatedEncodeBuildsAnEqualBuffer : Obligations.RepeatedEncodeBuildsAnEqualBuffer := by
  intro i cmd c s t hi ht hr
  obtain ⟨b, hb, rfl⟩ := eq_hold_of_encode_ok hi ht hr
  obtain ⟨-, -, -, -, hst, -⟩ := encodeBuffer_ok hb
  have hsame : encodeBuffer cmd (((s.hold b).respond .ok []).release.respond .ok b) = encodeBuffer cmd s :=
    encodeBuffer_congr cmd rfl hst.symm rfl
  exact ⟨_, _, exec_take_of_ready rfl c, rfl, exec_of_encodeBuffer_ok hi (hsame.trans hb), rfl, rfl⟩

/-! ### `requestTransmit` (R72) -/

theorem requestTransmit_of_ok {cmd : Command} {s : State} {b : List Sample} (hb : encodeBuffer cmd s = .ok b) :
    requestTransmit cmd s = .next {
      block := ((s.hold b).respond .ok []).release.respond .ok b, status := some .ok, toSink := some b } := by
  have hencode : encodeCommand cmd s = .next ((s.hold b).respond .ok []) := by
    simp only [encodeCommand, hb, complete_eq]
  have htake : takeBuffer ((s.hold b).respond .ok []) =
      .next (((s.hold b).respond .ok []).release.respond .ok b) :=
    exec_take_of_ready (s := (s.hold b).respond .ok []) rfl 0
  simp [requestTransmit, handOver, hencode, htake, State.status]

theorem requestTransmit_of_error {cmd : Command} {s : State} {e : SessionError}
    (he : encodeBuffer cmd s = .error e) :
    requestTransmit cmd s = .next {
      block := s.respond (.error e) [], status := some (.error e), toSink := none } := by
  have hencode : encodeCommand cmd s = .next (s.respond (.error e) []) := by
    simp only [encodeCommand, he, raiseError_eq]
  simp [requestTransmit, hencode, State.status]

/-- Settles O52: the `TAKE` after a completed `ENCODE` finds the buffer pending; after an error there is no `TAKE`. -/
theorem requestTransmitHandsTheBufferOver : Obligations.RequestTransmitHandsTheBufferOver :=
  fun _ _ => ⟨fun _ hb => ⟨_, requestTransmit_of_ok hb, rfl, rfl, rfl, rfl, rfl⟩,
    fun _ he => ⟨_, requestTransmit_of_error he, rfl, rfl, rfl, rfl, rfl⟩⟩

end Sys2Proof.Machine
end

