-- ==== Sys2Proof/Proofs/Steps.lean ====
section
/-! What a step keeps: the invariant of 10_state.md R30 and what follows from it, the events of the host
(70_reset_and_hazards.md R170, R178) and the responses of a run (20_memory.md R47). -/

namespace Sys2Proof.Machine

/-! ### One step -/

theorem step_of_operation {s : State} {w : OpWord} {a : Nat} {rest : List HostEvent} {i : Instr}
    (h : s.ops = .operation w a :: rest) (hdec : decode s.cfg.addrLen w a = .ok i) :
    step s = exec i (s.await rest) := by
  simp only [step, fetch, h, hdec]

theorem step_of_no_event {s : State} (h : s.ops = []) : step s = .next (s.await []) := by
  simp only [step, fetch, h]

/-- `step_cases` for a step that answers. -/
theorem step_next_cases {s t : State} (h : step s = .next t) :
    (s.ops = [] ∧ t = s.await []) ∨ (∃ rest, s.ops = .reset :: rest ∧ t = (s.await rest).clear) ∨
      ∃ w a rest i, s.ops = .operation w a :: rest ∧ decode s.cfg.addrLen w a = .ok i ∧
        exec i (s.await rest) = .next t := by
  rcases step_cases s with ⟨hops, h'⟩ | ⟨rest, hops, h'⟩ | ⟨w, a, rest, i, hops, hdec, h'⟩ | ⟨r, h'⟩
  · cases h'.symm.trans h
    exact .inl ⟨hops, rfl⟩
  · cases h'.symm.trans h
    exact .inr (.inl ⟨rest, hops, rfl⟩)
  · exact .inr (.inr ⟨w, a, rest, i, hops, hdec, h'.symm.trans h⟩)
  · cases h'.symm.trans h

/-- Settles O41: taking the event leaves the state the operation runs in. -/
theorem stepRunsTheDecodedOperation : Obligations.StepRunsTheDecodedOperation :=
  fun _ _ _ _ _ hops hdec => step_of_operation hops hdec

/-- A table word that spells an operation is placed as the transfer that the decoder reads it from (log 5). -/
theorem tableTransfer_of_decodeTableWord {nbits w : Nat} {i : Instr} (h : decodeTableWord nbits w = some i) :
    ∃ word a, tableTransfer nbits w = .operation word a ∧ decode 41 word a = .ok i := by
  unfold decodeTableWord at h
  split at h
  next hbyte =>
    refine ⟨_, _, if_pos hbyte, ?_⟩
    cases hdec : decode addrLenReference (BitVec.ofNat 5 (tableByte nbits w)) (tableAddr nbits w) with
    | error e => simp [hdec, Except.toOption] at h
    | ok j =>
      obtain rfl : j = i := by simpa [hdec, Except.toOption] using h
      exact hdec
  next => cases h

/-- Settles O42: the placed transfer is the next event, and taking it gives back the list of events there was. -/
theorem placedWordIsRun : Obligations.PlacedWordIsRun := by
  intro s nbits w i hlen hword
  obtain ⟨word, a, htransfer, hdec⟩ := tableTransfer_of_decodeTableWord hword
  have hops : (s.withFetchWord nbits w).ops = .operation word a :: s.ops := by simp [htransfer]
  exact step_of_operation hops (by simpa [hlen] using hdec)

/-! ### Reset (R31, R170) -/

/-- Settles O43. -/
theorem stateAfterReset : Obligations.StateAfterReset := ⟨rfl, rfl, rfl, rfl⟩

/-- Settles O44: taking the reset event leaves `ops`, and the event itself writes the rest. -/
theorem resetEventFromEveryState : Obligations.ResetEventFromEveryState :=
  fun _ _ h => step_of_reset h

/-! ### The invariant (R30 items 1 to 3) -/

/-- An output and the host's events are no part of the invariant. -/
theorem State.Inv.of_same_session {s t : State} (hs : s.Inv) (hcfg : t.cfg = s.cfg) (hst : t.st = s.st)
    (haddr : t.addr = s.addr) (hbuf : t.buf = s.buf) : t.Inv where
  unbound_iff := by rw [hst, haddr]; exact hs.unbound_iff
  ready_iff := by rw [hst, hbuf]; exact hs.ready_iff
  buf_good := by rw [hst, hbuf]; exact hs.buf_good
  addr_wf := by rw [hcfg, haddr]; exact hs.addr_wf

theorem State.Inv.await {s : State} (hs : s.Inv) (rest : List HostEvent) : (s.await rest).Inv :=
  hs.of_same_session rfl rfl rfl rfl

theorem State.Inv.respond {s : State} (hs : s.Inv) (status : Status) (samples : List Sample) :
    (s.respond status samples).Inv :=
  hs.of_same_session rfl rfl rfl rfl

/-- With no address and nothing pending, `Unbound` meets the invariant. -/
theorem State.Inv.of_unbound {s : State} (hst : s.st = .unbound) (haddr : s.addr = none) (hbuf : s.buf = []) :
    s.Inv where
  unbound_iff := by simp [hst, haddr]
  ready_iff := by simp [hst, hbuf]
  buf_good := by simp [hst]
  addr_wf := by simp [haddr]

theorem State.Inv.bindTo {s : State} (hs : s.Inv) (hst : s.st = .unbound) {a : List Digit}
    (ha : addressWf s.cfg.addrLen a = true) : (s.bindTo a).Inv where
  unbound_iff := by simp
  ready_iff := by simpa [hst] using hs.ready_iff
  buf_good := by simp
  addr_wf := by
    intro a' ha'
    obtain rfl : a = a' := by simpa using ha'
    exact ha

theorem State.Inv.hold {s : State} (hs : s.Inv) (hst : s.st = .bound) {b : List Sample} (hne : b ≠ [])
    (hgood : goodBuffer b) : (s.hold b).Inv where
  unbound_iff := by simpa [hst] using hs.unbound_iff
  ready_iff := by simp [hne]
  buf_good := fun _ => hgood
  addr_wf := hs.addr_wf

theorem State.Inv.release {s : State} (hs : s.Inv) (hst : s.st = .ready) : s.release.Inv where
  unbound_iff := by simpa [hst] using hs.unbound_iff
  ready_iff := by simp
  buf_good := by simp
  addr_wf := hs.addr_wf

/-- R30 item 3: samples that are on or off, with the pad behind them. -/
theorem goodBuffer_expand_append_pad (chips : List Chip) (S : Nat) : goodBuffer (expand chips S ++ pad) := by
  refine ⟨by simp, ?_, fun x hx => ?_⟩
  · rw [List.length_append, pad_length, Nat.add_sub_cancel]
    exact List.drop_left
  · rcases List.mem_append.mp hx with hx | hx
    · exact expand_mem hx
    · exact .inl (List.eq_of_mem_replicate hx)

theorem encodeBuffer_good {cmd : Command} {s : State} {b : List Sample} (h : encodeBuffer cmd s = .ok b) :
    goodBuffer b := by
  obtain ⟨ps, a, S, -, -, -, -, hb⟩ := encodeBuffer_ok h
  rcases buildBuffer_cases s.cfg ps a S with ⟨chips, hok⟩ | herr
  · obtain rfl : expand chips S ++ pad = b := by simpa [hok] using hb
    exact goodBuffer_expand_append_pad chips S
  · simp [herr] at hb

theorem exec_keeps_inv {i : Instr} {s t : State} (hs : s.Inv) (h : exec i s = .next t) : t.Inv := by
  rcases exec_next_cases h with ⟨e, rfl⟩ | ⟨c, a, -, ha, hst, rfl⟩ | ⟨cmd, b, -, hb, rfl⟩ | ⟨c, -, hst, rfl⟩
  · exact hs.respond _ _
  · exact (hs.bindTo hst ha).respond _ _
  · obtain ⟨-, -, -, -, hst, -⟩ := encodeBuffer_ok hb
    exact (hs.hold hst (encodeBuffer_ne_nil hb) (encodeBuffer_good hb)).respond _ _
  · exact (hs.release hst).respond _ _

/-- Settles O45. -/
theorem invariantHoldsAtReset : Obligations.InvariantHoldsAtReset :=
  .of_unbound rfl rfl rfl

/-- Settles O46: taking the event and each of the writes of 10_state.md R21 to R23 keep the invariant where an operation
makes them. -/
theorem everyStepKeepsTheInvariant : Obligations.EveryStepKeepsTheInvariant := by
  intro s t hs h
  rcases step_next_cases h with ⟨-, rfl⟩ | ⟨rest, -, rfl⟩ | ⟨w, a, rest, i, -, -, hexec⟩
  · exact hs.await []
  · exact .of_unbound rfl rfl rfl
  · exact exec_keeps_inv (hs.await rest) hexec

/-! ### What the invariant excludes (R144, R30 items 4 and 5) -/

theorem exec_ne_invalidBit {i : Instr} {s t : State} {r : Response} (hs : s.Inv) (h : exec i s = .next t)
    (hr : t.rsp = some r) : r.status ≠ .error .invalidBit := by
  intro hstatus
  cases hi : i.command with
  | none => simpa [hstatus] using status_of_command_none hi h hr
  | some cmd =>
    rcases exec_encode_next_cases hi h with ⟨e, he, rfl⟩ | ⟨b, -, rfl⟩
    · obtain rfl : _ = r := by simpa using hr
      obtain rfl : e = .invalidBit := by simpa using hstatus
      exact encodeBuffer_ne_invalidBit cmd (fun a ha => (addressWf_iff.mp (hs.addr_wf a ha)).2) he
    · obtain rfl : _ = r := by simpa using hr
      simp at hstatus

/-- Settles O49: a step answers through an operation only, and the address it runs with is made of bits. -/
theorem invalidBitIsUnreachable : Obligations.InvalidBitIsUnreachable := by
  intro s t r hs h hr
  rcases step_next_cases h with ⟨-, rfl⟩ | ⟨rest, -, rfl⟩ | ⟨w, a, rest, i, -, -, hexec⟩
  · simp at hr
  · simp at hr
  · exact exec_ne_invalidBit (hs.await rest) hexec hr

theorem exec_keeps_address {i : Instr} {s t : State} {a : List Digit} (hs : s.Inv) (ha : s.addr = some a)
    (h : exec i s = .next t) : t.addr = some a := by
  rcases exec_next_cases h with ⟨e, rfl⟩ | ⟨c, a', -, -, hst, rfl⟩ | ⟨cmd, b, -, -, rfl⟩ | ⟨c, -, -, rfl⟩
  · exact ha
  · simp [hs.unbound_iff.mp hst] at ha
  · exact ha
  · exact ha

/-- Settles O47: `BIND` is the only operation that writes `ADDR`, in `Unbound` only, where the invariant leaves no
address. -/
theorem addressIsKeptUntilReset : Obligations.AddressIsKeptUntilReset := by
  intro s t a hs ha hreset h
  rcases step_next_cases h with ⟨-, rfl⟩ | ⟨rest, hops, -⟩ | ⟨w, x, rest, i, -, -, hexec⟩
  · exact ha
  · exact absurd hops (hreset rest)
  · exact exec_keeps_address (hs.await rest) ha hexec

/-- The three writes of the session lead to `Bound` or `Ready`. -/
theorem exec_unbound {i : Instr} {s t : State} (h : exec i s = .next t) (ht : t.st = .unbound) : s.st = .unbound := by
  rcases exec_next_cases h with ⟨e, rfl⟩ | ⟨c, a, -, -, hst, -⟩ | ⟨cmd, b, -, -, rfl⟩ | ⟨c, -, -, rfl⟩
  · exact ht
  · exact hst
  · simp at ht
  · simp at ht

/-- Settles O48: without a reset the step is an operation or waits. -/
theorem onlyResetReturnsToUnbound : Obligations.OnlyResetReturnsToUnbound := by
  intro s t h ht
  rcases step_next_cases h with ⟨-, rfl⟩ | ⟨rest, hops, -⟩ | ⟨w, a, rest, i, -, -, hexec⟩
  · exact .inl ht
  · exact .inr ⟨rest, hops⟩
  · exact .inl (exec_unbound (s := s.await rest) hexec ht)

/-! ### A bad rate (R101) -/

theorem exec_not_ready_of_bad_rate {i : Instr} {s t : State} (hrate : samplesPerSymbol s.cfg = .error .invalidRate)
    (hst : s.st ≠ .ready) (h : exec i s = .next t) : t.st ≠ .ready := by
  rcases exec_next_cases h with ⟨e, rfl⟩ | ⟨c, a, -, -, -, rfl⟩ | ⟨cmd, b, -, hb, -⟩ | ⟨c, -, -, rfl⟩
  · exact hst
  · simp
  · obtain ⟨-, -, S, -, -, -, hS, -⟩ := encodeBuffer_ok hb
    simp [hrate] at hS
  · simp

/-- Settles O40: only an `ENCODE` that computed a buffer leads to `Ready`, and no step writes the rates. -/
theorem badRateNeverMakesABuffer : Obligations.BadRateNeverMakesABuffer := by
  refine fun s hrate => ⟨fun i cmd a hi hc hst ha => ?encode, fun t hst h => ?step⟩
  case encode => exact exec_of_encodeBuffer_error hi (encodeBuffer_of_bad_rate hc hst ha hrate)
  case step =>
    rcases step_next_cases h with ⟨-, rfl⟩ | ⟨rest, -, rfl⟩ | ⟨w, a, rest, i, -, -, hexec⟩
    · exact ⟨hst, hrate⟩
    · exact ⟨by simp, hrate⟩
    · obtain ⟨hcfg, -⟩ := exec_next_keeps hexec
      exact ⟨exec_not_ready_of_bad_rate (s := s.await rest) hrate hst hexec, by rw [hcfg]; exact hrate⟩

/-! ### Every event is answered (R178), an operation with one response (R47) -/

/-- A well-formed operation is never refused. -/
theorem exec_of_wf {i : Instr} {s : State} (h : i.wf s.cfg.addrLen = true) : ∃ t, exec i s = .next t := by
  rcases exec_cases i s with ⟨hwf, -⟩ | ⟨e, h'⟩ | ⟨c, a, -, -, -, h'⟩ | ⟨cmd, b, -, -, h'⟩ | ⟨c, -, -, h'⟩
  · simp [h] at hwf
  all_goals exact ⟨_, h'⟩

/-- R66: a word with a bus value that fits spells a well-formed operation. -/
theorem decode_of_fits {n a : Nat} (w : OpWord) (ha : a < 2 ^ n) : ∃ i, decode n w a = .ok i ∧ i.wf n = true := by
  have hdec := everyWordDecodesAsListed n w a ha
  exact ⟨_, hdec, (encodeOfDecodeGivesTheWord n w a _ hdec).1⟩

/-- A meaningful event is taken, with one response if it is an operation and none if it is a reset. -/
theorem step_of_wf_event {s : State} {e : HostEvent} {rest : List HostEvent} (hops : s.ops = e :: rest)
    (he : eventWf s.cfg.addrLen e = true) :
    ∃ t, step s = .next t ∧ t.cfg = s.cfg ∧ t.ops = rest ∧ t.rsp.toList.length = if e != .reset then 1 else 0 := by
  cases e with
  | reset => exact ⟨_, step_of_reset hops, rfl, rfl, rfl⟩
  | operation w a =>
    obtain ⟨i, hdec, hwf⟩ := decode_of_fits w (by simpa [eventWf] using he)
    obtain ⟨t, hexec⟩ := exec_of_wf (s := s.await rest) hwf
    obtain ⟨hcfg, hrest, r, hr⟩ := exec_next_keeps hexec
    exact ⟨t, (step_of_operation hops hdec).trans hexec, hcfg, hrest, by simp [hr]⟩
  | unknownTransfer => simp [eventWf] at he

/-- Settles O50. -/
theorem theBlockNeverHangs : Obligations.TheBlockNeverHangs := by
  intro s hevents
  cases hops : s.ops with
  | nil => exact ⟨_, step_of_no_event hops⟩
  | cons e rest =>
    obtain ⟨t, ht, -⟩ := step_of_wf_event hops (hevents e rest hops)
    exact ⟨t, ht⟩

theorem observe_of_next {s t : State} (h : step s = .next t) (k : Nat) :
    observe (k + 1) s = t.rsp.toList ++ observe k t := by
  simp only [observe, h]

/-- Settles O51, by induction on the events. -/
theorem oneResponsePerOperation : Obligations.OneResponsePerOperation := by
  intro s hevents
  generalize hops : s.ops = events at hevents ⊢
  induction events generalizing s with
  | nil => rfl
  | cons e rest ih =>
    obtain ⟨t, hstep, hcfg, hrest, hrsp⟩ := step_of_wf_event hops (hevents e List.mem_cons_self)
    have htail : (observe rest.length t).length = rest.countP fun e => e != .reset :=
      ih t hrest fun e' he' => hcfg ▸ hevents e' (List.mem_cons_of_mem e he')
    rw [List.length_cons, observe_of_next hstep, List.length_append, hrsp, htail, List.countP_cons, Nat.add_comm]

end Sys2Proof.Machine
end

