-- ==== Sys2Proof/Proofs/StageLaws.lean ====
section
/-! The derived laws of the stages: where the fields of a frame stand (41_bitframer.md R82, R83), what the line code
keeps of its input (42_lineencoder.md R92, R93), the samples per symbol and the samples of a chip stream
(43_sampleexpander.md R100, R105), and the frames of PowerToggle (44_commandrepeater.md). -/

namespace Sys2Proof

/-- Element `j` of a field that stands behind `k` others. -/
theorem getElem?_field {α : Type} {x pre field post : List α} (hx : x = pre ++ field ++ post) {k j : Nat}
    (hk : pre.length = k) (hj : j < field.length) : x[k + j]? = field[j]? := by
  subst hx hk
  rw [List.append_assoc, List.getElem?_append_right (Nat.le_add_right _ _), Nat.add_sub_cancel_left,
    List.getElem?_append_left hj]

/-- Three equal elements in a row stand at every remainder of a division of the index by 3. -/
theorem getElem?_of_run_of_three {α : Type} {c : α} {x : List α} (h : [c, c, c] <:+: x) {r : Nat} (hr : r < 3) :
    ∃ j, x[3 * j + r]? = some c := by
  obtain ⟨pre, post, rfl⟩ := h
  obtain ⟨k, hk, hindex⟩ : ∃ k < 3, 3 * ((pre.length + 2 - r) / 3) + r = pre.length + k :=
    ⟨3 * ((pre.length + 2 - r) / 3) + r - pre.length, by omega, by omega⟩
  refine ⟨(pre.length + 2 - r) / 3, ?_⟩
  rw [hindex, getElem?_field rfl rfl hk]
  exact List.getElem?_replicate_of_lt hk

theorem ones_cons_zero (x : List Digit) : ones (0 :: x) = ones x := List.count_cons_of_ne (by decide)

theorem ones_cons_one (x : List Digit) : ones (1 :: x) = ones x + 1 := List.count_cons_self

namespace Machine

/-! ### BitFramer (R82, R83) -/

section Fields

variable {c : Config} {a p : List Digit}

theorem frame_getElem?_preamble {j : Nat} (hj : j < 38) : (frame c a p)[j]? = c.preamble[j]? := by
  have hpre : c.preamble.length = 38 := config_preamble_length c
  have h := getElem?_field (x := frame c a p) (pre := []) (field := c.preamble) (post := a ++ separator ++ p ++ gap)
    (by simp [frame]) rfl (hpre.symm ▸ hj)
  simpa using h

theorem frame_getElem?_address (ha : a.length = c.addrLen) {j : Nat} (hj : j < c.addrLen) :
    (frame c a p)[38 + j]? = a[j]? :=
  getElem?_field (pre := c.preamble) (post := separator ++ p ++ gap) (by simp [frame]) (config_preamble_length c)
    (ha.symm ▸ hj)

theorem frame_getElem?_separator (ha : a.length = c.addrLen) {j : Nat} (hj : j < 5) :
    (frame c a p)[38 + c.addrLen + j]? = separator[j]? :=
  getElem?_field (pre := c.preamble ++ a) (post := p ++ gap) (by simp [frame])
    (by simp [config_preamble_length, preambleLen, ha]) hj

theorem frame_getElem?_payload (ha : a.length = c.addrLen) (hp : p.length = 22) {j : Nat} (hj : j < 22) :
    (frame c a p)[43 + c.addrLen + j]? = p[j]? :=
  getElem?_field (pre := c.preamble ++ a ++ separator) (post := gap) rfl
    (by simp [config_preamble_length, preambleLen, separator, ha]; omega) (hp.symm ▸ hj)

theorem frame_getElem?_gap (ha : a.length = c.addrLen) (hp : p.length = 22) {j : Nat} (hj : j < 62) :
    (frame c a p)[65 + c.addrLen + j]? = gap[j]? :=
  getElem?_field (pre := c.preamble ++ a ++ separator ++ p) (post := []) (by simp [frame])
    (by simp [config_preamble_length, preambleLen, separator, ha, hp]; omega) (by simpa [gap, gapLen] using hj)

end Fields

theorem separator_getElem? : ∀ j < 5, separator[j]? = some (if j = 1 then 1 else 0) := by decide

theorem preambleReference_getElem?_alternates :
    ∀ j < 23, preambleReference[j]? = some (if j % 2 = 0 then 1 else 0) := by decide

theorem preambleReference_getElem?_zero : ∀ j < 38, 23 ≤ j → preambleReference[j]? = some 0 := by decide

theorem gap_getElem? {j : Nat} (hj : j < 62) : gap[j]? = some 0 := List.getElem?_replicate_of_lt hj

/-- Settles O8: each field stands behind the lengths of the fields before it. -/
theorem frameFieldPositions : Obligations.FrameFieldPositions := by
  intro c a p ha hp
  refine ⟨?length, fun j => frame_getElem?_preamble, fun j => frame_getElem?_address ha,
    fun j hj => (frame_getElem?_separator ha hj).trans (separator_getElem? j hj),
    fun j => frame_getElem?_payload ha hp,
    fun j hj => (frame_getElem?_gap ha hp hj).trans (gap_getElem? hj),
    fun hc => ⟨fun j hj => ?alternates, fun j hj hge => ?zeros, ones_frame hc a p⟩⟩
  case length =>
    rw [frame_length_eq_add, ha, hp]
    omega
  case alternates =>
    rw [frame_getElem?_preamble (by omega), hc]
    exact preambleReference_getElem?_alternates j hj
  case zeros =>
    rw [frame_getElem?_preamble hj, hc]
    exact preambleReference_getElem?_zero j hj hge

/-- Settles O9: the payloads a command selects are the configuration's, which have 22 bits. -/
theorem onlyWholePayloadsAreFramed : Obligations.OnlyWholePayloadsAreFramed :=
  ⟨fun _ _ _ hp => if_neg hp, fun _ _ _ _ hps _ hp => if_pos (payloads_mem hps hp).1⟩

/-! ### The frames of PowerToggle (R112) -/

theorem frame_injective {c : Config} {a p q : List Digit} (h : frame c a p = frame c a q) : p = q :=
  List.append_cancel_left (List.append_cancel_right h)

/-- Two payloads of one length change the payload field and nothing else. -/
theorem frame_getElem?_outside_payload {c : Config} {a p q : List Digit} (ha : a.length = c.addrLen)
    (hp : p.length = 22) (hq : q.length = 22) {j : Nat} (hj : j < 43 + c.addrLen ∨ 65 + c.addrLen ≤ j) :
    (frame c a p)[j]? = (frame c a q)[j]? := by
  have hhead : (c.preamble ++ a ++ separator).length = 43 + c.addrLen := by
    simp [config_preamble_length, preambleLen, separator, ha]; omega
  rcases hj with hj | hj
  · have hj' : j < (c.preamble ++ a ++ separator).length := by omega
    simp only [frame, List.append_assoc _ _ gap, List.getElem?_append_left hj']
  · have hbehind : ∀ r : List Digit, r.length = 22 → (frame c a r)[j]? = gap[j - (65 + c.addrLen)]? := by
      intro r hr
      have hlen : (c.preamble ++ a ++ separator ++ r).length = 65 + c.addrLen := by
        rw [List.length_append, hhead, hr]; omega
      rw [frame, List.getElem?_append_right (hlen.symm ▸ hj), hlen]
    rw [hbehind p hp, hbehind q hq]

/-- Settles O17: the two frames are those of the press and the release payload, which a configuration keeps apart. -/
theorem powerToggleFramesRepeatAndDiffer : Obligations.PowerToggleFramesRepeatAndDiffer := by
  intro c a ha
  have hpress : c.pPwrPress.length = 22 := (config_payload (c := c) (by simp [RawConfig.payloads])).1
  have hrelease : c.pPwrRelease.length = 22 := (config_payload (c := c) (by simp [RawConfig.payloads])).1
  refine ⟨frame c a c.pPwrPress, frame c a c.pPwrRelease, rfl, ?_, fun h => config_pwr_ne c (frame_injective h),
    fun j hj => frame_getElem?_outside_payload ha hpress hrelease hj⟩
  simp [frameBits, frames, payloads, framesOf]

/-! ### LineEncoder (R92, R93) -/

theorem chipsOf_count_one {x : List Digit} (h : allBits x = true) : (chipsOf x).count 1 = x.length + ones x := by
  induction x with
  | nil => rfl
  | cons d x ih =>
    simp only [allBits_cons, Bool.and_eq_true, isBit_iff] at h
    obtain ⟨hd, hx⟩ := h
    rw [chipsOf_cons, List.count_append, ih hx, List.length_cons]
    rcases hd with rfl | rfl
    · have hpattern : ([1, BitVec.ofNat 1 0, 0] : List Chip).count 1 = 1 := rfl
      rw [hpattern, ones_cons_zero]
      omega
    · have hpattern : ([1, BitVec.ofNat 1 1, 0] : List Chip).count 1 = 2 := rfl
      rw [hpattern, ones_cons_one]
      omega

theorem chip_count_zero_add_one (x : List Chip) : x.count 0 + x.count 1 = x.length := by
  induction x with
  | nil => rfl
  | cons c x ih =>
    rw [List.count_cons, List.count_cons, List.length_cons, ← ih]
    rcases chip_cases c with rfl | rfl
    · simp; omega
    · simp; omega

theorem chipsOf_getElem?_middle (x : List Digit) (j : Nat) :
    (chipsOf x)[3 * j + 1]? = x[j]?.map (BitVec.ofNat 1) := by
  rw [chipsOf_getElem? x j (by decide), Option.map_eq_bind]
  rfl

theorem toNat_middle_chip {d : Digit} (h : isBit d = true) : (BitVec.ofNat 1 d).toNat = d := by
  rcases isBit_iff.mp h with rfl | rfl <;> rfl

theorem chipsOf_injective {x y : List Digit} (hx : allBits x = true) (hy : allBits y = true)
    (h : chipsOf x = chipsOf y) : x = y := by
  induction x generalizing y with
  | nil =>
    cases y with
    | nil => rfl
    | cons e y => simp at h
  | cons d x ih =>
    cases y with
    | nil => simp at h
    | cons e y =>
      simp only [allBits_cons, Bool.and_eq_true] at hx hy
      rw [chipsOf_cons, chipsOf_cons] at h
      obtain ⟨hpattern, htail⟩ := List.append_inj h rfl
      have hchip : BitVec.ofNat 1 d = BitVec.ofNat 1 e := by simpa using hpattern
      rw [ih hx.2 hy.2 htail, ← toNat_middle_chip hx.1, ← toNat_middle_chip hy.1, hchip]

theorem chipsOf_first_chip {x : List Digit} {j : Nat} {c : Chip} (h : (chipsOf x)[3 * j + 0]? = some c) : c = 1 := by
  rw [chipsOf_getElem? x j (by decide)] at h
  obtain ⟨b, -, hc⟩ := Option.bind_eq_some_iff.mp h
  exact (Option.some.inj hc).symm

theorem chipsOf_last_chip {x : List Digit} {j : Nat} {c : Chip} (h : (chipsOf x)[3 * j + 2]? = some c) : c = 0 := by
  rw [chipsOf_getElem? x j (by decide)] at h
  obtain ⟨b, -, hc⟩ := Option.bind_eq_some_iff.mp h
  exact (Option.some.inj hc).symm

/-- Settles O11: on the inputs it accepts `LineEncode` is `chipsOf`, and a run of three chips holds the first chip of a
pattern and the last chip of one. -/
theorem lineEncodeLaws : Obligations.LineEncodeLaws := by
  intro x y u v hu hv
  obtain ⟨hx, rfl⟩ := lineEncode_eq_ok hu
  obtain ⟨hy, rfl⟩ := lineEncode_eq_ok hv
  refine ⟨chipsOf_length x, ?append, chipsOf_count_one hx, ?zeroCount, chipsOf_injective hx hy,
    fun j _ => chipsOf_getElem?_middle x j, fun hrun => ?ones, fun hrun => ?zeros⟩
  case append =>
    rw [lineEncode_ok (by simp [hx, hy]), chipsOf_append]
  case zeroCount =>
    have htotal := chip_count_zero_add_one (chipsOf x)
    rw [chipsOf_length, chipsOf_count_one hx] at htotal
    omega
  case ones =>
    obtain ⟨j, hj⟩ := getElem?_of_run_of_three hrun (r := 2) (by decide)
    exact absurd (chipsOf_last_chip hj) (by decide)
  case zeros =>
    obtain ⟨j, hj⟩ := getElem?_of_run_of_three hrun (r := 0) (by decide)
    exact absurd (chipsOf_first_chip hj) (by decide)

theorem allBits_eq_false_iff {x : List Digit} : allBits x = false ↔ ∃ d ∈ x, d ≠ 0 ∧ d ≠ 1 := by
  simp [allBits, isBit]

/-- Settles O12: `LineEncode` accepts exactly the bit strings, and a frame of bits is one. -/
theorem invalidBitExactlyOnNonBinaryInput : Obligations.InvalidBitExactlyOnNonBinaryInput := by
  refine ⟨fun bits e => ?_, fun c cmd ps a hps ha =>
    ⟨_, lineEncode_ok (framesOf_allBits ha fun p hp => (payloads_mem hps hp).2)⟩⟩
  rw [← allBits_eq_false_iff]
  cases hbits : allBits bits with
  | false => simp [lineEncode_error hbits, eq_comm]
  | true => simp [lineEncode_ok hbits]

/-! ### SampleExpander (R100, R105) -/

theorem samplesPerSymbol_eq_ok_iff {c : Config} {S : Nat} :
    samplesPerSymbol c = .ok S ↔ 1 ≤ S ∧ 1 ≤ c.baudRate ∧ c.sampleRate = S * c.baudRate := by
  constructor
  · intro h
    have hbaud : c.baudRate ≠ 0 := fun h0 => by simp [samplesPerSymbol, h0] at h
    rcases samplesPerSymbol_cases c with ⟨S', hS', hpos, hrate⟩ | herr
    · obtain rfl : S' = S := by simpa [hS'] using h
      exact ⟨hpos, Nat.pos_of_ne_zero hbaud, hrate⟩
    · simp [herr] at h
  · rintro ⟨hS, hbaud, hrate⟩
    have hquot : c.sampleRate / c.baudRate = S := by rw [hrate, Nat.mul_div_cancel _ hbaud]
    have hrem : c.sampleRate % c.baudRate = 0 := by rw [hrate, Nat.mul_mod_left]
    simp [samplesPerSymbol, hquot, hrem, Nat.ne_of_gt hS, Nat.ne_of_gt hbaud]

/-- Settles O13. -/
theorem samplesPerSymbolIsTheExactQuotient : Obligations.SamplesPerSymbolIsTheExactQuotient := by
  refine ⟨fun c S => samplesPerSymbol_eq_ok_iff, fun c e h => ?_,
    samplesPerSymbol_eq_ok_iff.mpr ⟨by decide, by decide, rfl⟩⟩
  rcases samplesPerSymbol_cases c with ⟨S, hS, -⟩ | herr
  · simp [hS] at h
  · simpa [herr, eq_comm] using h

theorem expand_count_on (x : List Chip) (S : Nat) : (expand x S).count Sample.on = S * x.count 1 := by
  induction x with
  | nil => rfl
  | cons c x ih =>
    rw [expand_cons, List.count_append, ih, List.count_replicate, List.count_cons, Nat.mul_add, Nat.add_comm]
    rcases chip_cases c with rfl | rfl <;> simp [Sample.on]

theorem expand_chipsOf_zero (S : Nat) :
    expand (chipsOf [0]) S = List.replicate S Sample.on ++ List.replicate (2 * S) Sample.off := by
  rw [Nat.two_mul, List.replicate_add]
  simp [Sample.on, Sample.off]

theorem expand_chipsOf_one (S : Nat) :
    expand (chipsOf [1]) S = List.replicate (2 * S) Sample.on ++ List.replicate S Sample.off := by
  rw [Nat.two_mul, List.replicate_add, List.append_assoc, ← List.append_nil (List.replicate S Sample.off)]
  rfl

/-- Settles O15. -/
theorem expandLaws : Obligations.ExpandLaws := fun x y S _ =>
  ⟨expand_length x S, expand_append x y S, expand_count_on x S, fun _ => expand_mem,
    congrArg Except.ok (expand_chipsOf_zero S), congrArg Except.ok (expand_chipsOf_one S)⟩

end Machine
end Sys2Proof
end

