-- ==== Sys2Proof/Proofs/Configuration.lean ====
section
/-! Which configurations are accepted (00_scope.md R190), the reference values (R6, R7, R11) and the status codes
(60_exceptions.md R141). -/

namespace Sys2Proof.Machine

/-- R190, from its five conditions; `RawConfig_defect_none` is the other direction. -/
theorem RawConfig_wf_of_conditions {r : RawConfig} (haddr : r.addrLen ≠ 0) (hpre : r.preamble.length = preambleLen)
    (hlen : ∀ p ∈ r.payloads, p.length = payloadLen) (hpwr : r.pPwrPress ≠ r.pPwrRelease)
    (hbits : ∀ x ∈ r.preamble :: r.payloads, allBits x = true) : r.wf = true := by
  have hlen' : (r.payloads.any fun p => p.length != payloadLen) = false := by simpa using hlen
  have hbits' : (r.preamble :: r.payloads).any (fun x => !allBits x) = false := by simpa using hbits
  simp [RawConfig.wf, RawConfig.defect, haddr, hpre, hlen', hpwr, hbits']

/-- A configuration is accepted unchanged if it is well-formed, and only such a one can be. -/
theorem check_eq_ok_iff_wf (r : RawConfig) :
    (∃ c : Config, r.check = .ok c ∧ c.toRawConfig = r) ↔ r.wf = true := by
  constructor
  · rintro ⟨c, -, rfl⟩
    exact c.isWf
  · intro h
    exact ⟨⟨r, h⟩, dif_pos h, rfl⟩

/-- Settles O22. -/
theorem configurationCheck : Obligations.ConfigurationCheck := by
  intro r
  rw [check_eq_ok_iff_wf]
  constructor
  · rintro ⟨haddr, hpre, hlen, hpwr, hbits⟩
    exact RawConfig_wf_of_conditions (Nat.ne_of_gt haddr) hpre hlen hpwr fun x hx => allBits_iff.mpr (hbits x hx)
  · intro h
    obtain ⟨haddr, hpre, hlen, hpwr, hbits⟩ := RawConfig_defect_none h
    exact ⟨Nat.pos_of_ne_zero haddr, hpre, hlen, hpwr, fun x hx => allBits_iff.mp (hbits x hx)⟩

/-- Settles O23. -/
theorem referenceInstance : Obligations.ReferenceInstance :=
  ⟨rfl, rfl, rfl, rfl, rfl, rfl, rfl⟩

/-- The status a code stands for (R141); codes 8 to 14 stand for none. -/
def statusOfCode (code : BitVec 4) : Option Status :=
  [.ok, .error .missingAddress, .error .alreadyBound, .error .unsupportedCommand, .error .invalidBit,
    .error .invalidRate, .error .transmissionInProgress, .error .noPendingTransmission,
    .error .illegalOperation].find? fun x => x.code = code

theorem statusOfCode_code (x : Status) : statusOfCode x.code = some x := by
  rcases x with _ | e
  · rfl
  · cases e <;> rfl

theorem status_code_injective {x y : Status} (h : x.code = y.code) : x = y := by
  have hread : some x = some y := by rw [← statusOfCode_code x, h, statusOfCode_code y]
  exact Option.some.inj hread

theorem status_code_range (x : Status) : x.code.toNat < 8 ∨ x.code.toNat = 15 := by
  rcases x with _ | e
  · decide
  · cases e <;> decide

/-- Settles O24: a code can be read back, so no two statuses share one. -/
theorem statusCodes : Obligations.StatusCodes :=
  ⟨rfl, rfl, rfl, rfl, rfl, rfl, rfl, rfl, rfl, fun _ _ => status_code_injective, status_code_range⟩

end Sys2Proof.Machine
end

