-- ==== Sys2Proof/Proofs/Buffer.lean ====
section
/-! The buffer an `ENCODE` holds: its closed form, and what is read off it index by index (45_transmitsession.md R123
to R125, 20_memory.md R41). -/

namespace Sys2Proof.Machine

/-- R124 in closed form: the buffer that is built from an address of bits. -/
def builtBuffer (c : Config) (ps : List (List Digit)) (a : List Digit) (S : Nat) : List Sample :=
  expand (chipsOf (framesOf c ps a).flatten) S ++ pad

theorem encodeBuffer_eq_builtBuffer {cmd : Command} {s : State} {ps : List (List Digit)} {a : List Digit} {S : Nat}
    (hps : payloads s.cfg cmd = .ok ps) (hst : s.st = .bound) (ha : s.addr = some a) (hbits : allBits a = true)
    (hS : samplesPerSymbol s.cfg = .ok S) : encodeBuffer cmd s = .ok (builtBuffer s.cfg ps a S) := by
  rw [encodeBuffer_eq hps hst ha hS, buildBuffer_ok hbits fun p hp => (payloads_mem hps hp).2, builtBuffer]

/-- An `ENCODE` that answered `OK` with an address of bits holds the built buffer. -/
theorem buf_of_encode_ok {i : Instr} {cmd : Command} {s t : State} {a : List Digit} {samples : List Sample}
    (hi : i.command = some cmd) (ha : s.addr = some a) (hbits : allBits a = true) (h : exec i s = .next t)
    (hr : t.rsp = some { status := .ok, samples := samples }) :
    ∃ ps S, payloads s.cfg cmd = .ok ps ∧ samplesPerSymbol s.cfg = .ok S ∧ t.buf = builtBuffer s.cfg ps a S := by
  obtain ⟨b, hb, rfl⟩ := eq_hold_of_encode_ok hi h hr
  obtain ⟨ps, a', S, hps, hst, ha', hS, -⟩ := encodeBuffer_ok hb
  have hbuilt := encodeBuffer_eq_builtBuffer hps hst ha hbits hS
  exact ⟨ps, S, hps, hS, by simpa [hb] using hbuilt⟩

/-- The same, for the payloads and the factor that are known already. -/
theorem buf_eq_builtBuffer {i : Instr} {cmd : Command} {s t : State} {a : List Digit} {samples : List Sample}
    {ps : List (List Digit)} {S : Nat} (hi : i.command = some cmd) (ha : s.addr = some a) (hbits : allBits a = true)
    (hps : payloads s.cfg cmd = .ok ps) (hS : samplesPerSymbol s.cfg = .ok S) (h : exec i s = .next t)
    (hr : t.rsp = some { status := .ok, samples := samples }) : t.buf = builtBuffer s.cfg ps a S := by
  obtain ⟨ps', S', hps', hS', hbuf⟩ := buf_of_encode_ok hi ha hbits h hr
  obtain rfl : ps' = ps := Except.ok.inj (hps'.symm.trans hps)
  obtain rfl : S' = S := Except.ok.inj (hS'.symm.trans hS)
  exact hbuf

/-! ### Length and layout (R41, R125) -/

section Layout

variable {c : Config} {ps : List (List Digit)} {a : List Digit}

theorem expand_chipsOf_frames_length (ha : a.length = c.addrLen) (hps : ∀ p ∈ ps, p.length = payloadLen) (S : Nat) :
    (expand (chipsOf (framesOf c ps a).flatten) S).length = ps.length * 3 * (127 + c.addrLen) * S := by
  rw [expand_length, chipsOf_length, framesOf_flatten_length ha hps, frameLen_eq]
  ring

theorem builtBuffer_length (ha : a.length = c.addrLen) (hps : ∀ p ∈ ps, p.length = payloadLen) (S : Nat) :
    (builtBuffer c ps a S).length = ps.length * 3 * (127 + c.addrLen) * S + 4096 := by
  rw [builtBuffer, List.length_append, expand_chipsOf_frames_length ha hps, pad_length, padLen]

/-- A sample before the pad: its frame, its bit in the frame, its chip in the bit. -/
theorem builtBuffer_getElem?_of_lt (ha : a.length = c.addrLen) (hps : ∀ p ∈ ps, p.length = payloadLen) {S n : Nat}
    (hn : n < ps.length * 3 * (127 + c.addrLen) * S) :
    (builtBuffer c ps a S)[n]? =
      ((ps[n / (3 * (127 + c.addrLen) * S)]?.bind
        fun p => (frame c a p)[n % (3 * (127 + c.addrLen) * S) / (3 * S)]?).bind
          fun b => ([1, BitVec.ofNat 1 b, 0] : List Chip)[n % (3 * S) / S]?).map fun ch => { re := ch, im := 0 } := by
  have hS : 0 < S := Nat.pos_of_ne_zero fun h => by simp [h] at hn
  have hF : 0 < frameLen c := by rw [frameLen_eq]; omega
  have hchip : n % (3 * S) / S = n / S % 3 := by rw [Nat.mul_comm, Nat.mod_mul_right_div_self]
  have hbit : n % (3 * (127 + c.addrLen) * S) / (3 * S) = n / S / 3 % frameLen c := by
    rw [show 3 * (127 + c.addrLen) * S = 3 * S * frameLen c by rw [frameLen_eq]; ring, Nat.mod_mul_right_div_self,
      Nat.mul_comm 3 S, Nat.div_div_eq_div_mul]
  have hframe : n / (3 * (127 + c.addrLen) * S) = n / S / 3 / frameLen c := by
    rw [Nat.div_div_eq_div_mul, Nat.div_div_eq_div_mul, frameLen_eq]
    congr 1
    ring
  have hsplit : n = S * (3 * (frameLen c * (n / S / 3 / frameLen c) + n / S / 3 % frameLen c) + n / S % 3) + n % S := by
    rw [Nat.div_add_mod, Nat.div_add_mod, Nat.div_add_mod]
  rw [builtBuffer, List.getElem?_append_left (by rwa [expand_chipsOf_frames_length ha hps]), hchip, hbit, hframe]
  conv_lhs => rw [hsplit]
  rw [expand_getElem? _ _ (Nat.mod_lt _ hS), chipsOf_getElem? _ _ (Nat.mod_lt _ (by decide)),
    framesOf_flatten_getElem? ha hps _ _ (Nat.mod_lt _ hF)]

theorem builtBuffer_getElem?_pad (ha : a.length = c.addrLen) (hps : ∀ p ∈ ps, p.length = payloadLen) (S : Nat)
    {n : Nat} (hn : n < 4096) :
    (builtBuffer c ps a S)[ps.length * 3 * (127 + c.addrLen) * S + n]? = some Sample.off := by
  rw [getElem?_field (x := builtBuffer c ps a S) (List.append_nil _).symm (expand_chipsOf_frames_length ha hps S)
    (by rwa [pad_length])]
  exact pad_getElem? hn

end Layout

/-- Settles O18: the buffer is the built one, whose index is split by `S`, by 3 and by the length of a frame. -/
theorem bufferLayout : Obligations.BufferLayout := by
  intro i cmd s t a ps S hi ha hwf hps hS h hr
  obtain ⟨hlen, hbits⟩ := addressWf_iff.mp hwf
  have hpayloads : ∀ p ∈ ps, p.length = payloadLen := fun p hp => (payloads_mem hps hp).1
  rw [buf_eq_builtBuffer hi ha hbits hps hS h hr]
  exact ⟨builtBuffer_length hlen hpayloads S, fun n => builtBuffer_getElem?_of_lt hlen hpayloads,
    fun n => builtBuffer_getElem?_pad hlen hpayloads S⟩

/-! ### The samples that are on (R125) -/

theorem ones_framesOf {c : Config} (hc : c.preamble = preambleReference) (ps : List (List Digit)) (a : List Digit) :
    ones (framesOf c ps a).flatten = (ps.map fun p => 13 + ones a + ones p).sum := by
  induction ps with
  | nil => rfl
  | cons p ps ih =>
    have hcons : (framesOf c (p :: ps) a).flatten = frame c a p ++ (framesOf c ps a).flatten := rfl
    rw [hcons, ones_append, ih, ones_frame hc, List.map_cons, List.sum_cons]
    omega

/-- Settles O19: each bit has one chip that is on, and a second one if it is a 1. -/
theorem bufferLengthAndOnSamples : Obligations.BufferLengthAndOnSamples := by
  intro i cmd s t a ps S hi ha hwf hc hps hS h hr
  obtain ⟨hlen, hbits⟩ := addressWf_iff.mp hwf
  have hpayloads : ∀ p ∈ ps, p.length = payloadLen := fun p hp => (payloads_mem hps hp).1
  have hframes : allBits (framesOf s.cfg ps a).flatten = true :=
    framesOf_allBits hbits fun p hp => (payloads_mem hps hp).2
  rw [buf_eq_builtBuffer hi ha hbits hps hS h hr]
  refine ⟨builtBuffer_length hlen hpayloads S, ?_⟩
  rw [builtBuffer, List.count_append, pad_count_on, Nat.add_zero, expand_count_on, chipsOf_count_one hframes,
    framesOf_flatten_length hlen hpayloads, frameLen_eq, ones_framesOf hc]

/-! ### The final zero run (R124) -/

/-- The last bit of a transmission is the last 0 of a gap. -/
theorem framesOf_ends_in_zero (c : Config) {ps : List (List Digit)} (hne : ps ≠ []) (a : List Digit) :
    ∃ bits, (framesOf c ps a).flatten = bits ++ [0] := by
  have hgap : gap = List.replicate 61 0 ++ [0] := by decide
  refine ⟨(framesOf c ps.dropLast a).flatten ++
    (c.preamble ++ a ++ separator ++ ps.getLast hne ++ List.replicate 61 0), ?_⟩
  conv_lhs => rw [← List.dropLast_append_getLast hne]
  simp [framesOf, frame, hgap]

/-- Settles O20: the chips of a last 0 are one that is on and two that are off, and the pad follows. -/
theorem finalZeroRun : Obligations.FinalZeroRun := by
  intro i cmd s t a S hi ha hwf hS h hr
  have hbits := (addressWf_iff.mp hwf).2
  obtain ⟨ps, S', hps, hS', hbuf⟩ := buf_of_encode_ok hi ha hbits h hr
  obtain rfl : S' = S := Except.ok.inj (hS'.symm.trans hS)
  obtain ⟨bits, hlast⟩ := framesOf_ends_in_zero s.cfg (payloads_ne_nil hps) a
  refine ⟨expand (chipsOf bits) S', ?_⟩
  rw [hbuf, builtBuffer, hlast, chipsOf_append, expand_append, expand_chipsOf_zero, pad, padLen, Nat.add_comm 4096,
    List.replicate_add]
  simp only [List.append_assoc]

/-! ### Completion (R123) -/

/-- In `Bound` with an address of bits and a good rate an `ENCODE` holds the built buffer of its payloads. -/
theorem exec_encode_builds {i : Instr} {cmd : Command} {s : State} {ps : List (List Digit)} {a : List Digit} {S : Nat}
    (hi : i.command = some cmd) (hps : payloads s.cfg cmd = .ok ps) (hst : s.st = .bound) (ha : s.addr = some a)
    (hbits : allBits a = true) (hS : samplesPerSymbol s.cfg = .ok S) :
    exec i s = .next ((s.hold (builtBuffer s.cfg ps a S)).respond .ok []) :=
  exec_of_encodeBuffer_ok hi (encodeBuffer_eq_builtBuffer hps hst ha hbits hS)

/-- R125 for an `ENCODE` that completes. -/
theorem exec_encode_buf_length {i : Instr} {cmd : Command} {s : State} {ps : List (List Digit)} {a : List Digit}
    {S : Nat} (hi : i.command = some cmd) (hps : payloads s.cfg cmd = .ok ps) (hst : s.st = .bound)
    (ha : s.addr = some a) (hwf : addressWf s.cfg.addrLen a = true) (hS : samplesPerSymbol s.cfg = .ok S) :
    ∃ t, exec i s = .next t ∧ t.buf.length = ps.length * 3 * (127 + s.cfg.addrLen) * S + 4096 := by
  obtain ⟨hlen, hbits⟩ := addressWf_iff.mp hwf
  exact ⟨_, exec_encode_builds hi hps hst ha hbits hS,
    builtBuffer_length hlen (fun p hp => (payloads_mem hps hp).1) S⟩

/-- Settles O21: the fan commands with a number above 0 have two payloads, the other two have four. -/
theorem referenceBufferLengths : Obligations.ReferenceBufferLengths := by
  intro s a hst ha hwf hlen hS
  have hrow : ∀ i cmd ps, i.command = some cmd → payloads s.cfg cmd = .ok ps →
      ∃ t, exec i s = .next t ∧ t.buf.length = ps.length * 403200 + 4096 := by
    intro i cmd ps hi hps
    obtain ⟨t, ht, hbuf⟩ := exec_encode_buf_length hi hps hst ha (hlen.symm ▸ hwf) hS
    exact ⟨t, ht, by rw [hbuf, hlen]; omega⟩
  refine ⟨fun i hi => ?two, fun i hi => ?four⟩
  case two =>
    simp only [List.mem_cons, List.not_mem_nil, or_false] at hi
    rcases hi with rfl | rfl | rfl
    · simpa using hrow _ .fanSpeed1 [_, _] rfl rfl
    · simpa using hrow _ .fanSpeed2 [_, _] rfl rfl
    · simpa using hrow _ .fanSpeed3 [_, _] rfl rfl
  case four =>
    simp only [List.mem_cons, List.not_mem_nil, or_false] at hi
    rcases hi with rfl | rfl
    · simpa using hrow _ .powerToggle [_, _, _, _] rfl rfl
    · simpa using hrow _ .fanSpeed0 [_, _, _, _] rfl rfl

/-- The built buffer, written out with the table of chip patterns (R90, R102). -/
theorem builtBuffer_eq_flatMap {c : Config} {ps : List (List Digit)} {a : List Digit} (S : Nat)
    (hbits : allBits (framesOf c ps a).flatten = true) :
    builtBuffer c ps a S = ((ps.flatMap (frame c a)).flatMap fun b =>
      (if b = 0 then [1, 0, 0] else [1, 1, 0] : List Chip).flatMap fun ch =>
        List.replicate S { re := ch, im := 0 }) ++ List.replicate 4096 { re := 0, im := 0 } := by
  have hframes : ps.flatMap (frame c a) = (framesOf c ps a).flatten := List.flatMap_def
  rw [builtBuffer, expand, chipsOf, List.flatMap_assoc, hframes]
  congr 1
  refine List.flatMap_congr fun b hb => ?_
  rw [chipPattern_eq_closedForm (allBits_iff.mp hbits b hb)]

/-- Settles O27: each row holds the built buffer of its payloads. -/
theorem encodeBuildsAndHoldsTheBuffer : Obligations.EncodeBuildsAndHoldsTheBuffer := by
  intro s a S hst ha hbits hSpos hbaud hrate row hrow
  have hS : samplesPerSymbol s.cfg = .ok S := samplesPerSymbol_eq_ok_iff.mpr ⟨hSpos, hbaud, hrate⟩
  obtain ⟨cmd, hi, hps⟩ : ∃ cmd, row.1.command = some cmd ∧ payloads s.cfg cmd = .ok row.2 := by
    simp only [List.mem_cons, List.not_mem_nil, or_false] at hrow
    rcases hrow with rfl | rfl | rfl | rfl | rfl
    all_goals exact ⟨_, rfl, rfl⟩
  rw [exec_encode_builds hi hps hst ha hbits hS,
    builtBuffer_eq_flatMap S (framesOf_allBits hbits fun p hp => (payloads_mem hps hp).2)]
  rfl

end Sys2Proof.Machine
end

