-- ==== Sys2Proof/Proofs/Pins.lean ====
section
/-! The block on its pins: one rule for each phase of `clockEdge` (30_encoding.md R60 to R64), and what the channels
carry over many edges. -/

namespace Sys2Proof.Machine

/-! ### One edge, phase by phase -/

theorem clockEdge_of_rst {x : PinInput} (h : x.rst = true) (p : PinState) :
    clockEdge p x = .next { block := p.block.clear, phase := .idle } :=
  if_pos h

theorem clockEdge_idle_of_transfer {x : PinInput} (hrst : x.rst = false) (h : x.opValid = true) (s : State) :
    clockEdge { block := s, phase := .idle } x =
      .next { block := s, phase := .working x.opWord x.opAddr } := by
  simp [clockEdge, hrst, h]

theorem clockEdge_idle_of_no_transfer {x : PinInput} (hrst : x.rst = false) (h : x.opValid = false) (s : State) :
    clockEdge { block := s, phase := .idle } x = .next { block := s, phase := .idle } := by
  simp [clockEdge, hrst, h]

theorem clockEdge_working_of_done {x : PinInput} (hrst : x.rst = false) (h : x.done = true) {s t : State} {r : Response}
    {w : OpWord} {a : Nat} (hstep : step { s with ops := [.operation w a] } = .next t) (hr : t.rsp = some r) :
    clockEdge { block := s, phase := .working w a } x = .next { block := t, phase := .responding w r } := by
  simp [clockEdge, hrst, h, hstep, hr]

theorem clockEdge_responding_of_ready {x : PinInput} (hrst : x.rst = false) (h : x.rspReady = true) (s : State)
    (w : OpWord) (r : Response) :
    clockEdge { block := s, phase := .responding w r } x = .next { block := s, phase := streamPhase r.samples } := by
  simp [clockEdge, hrst, h]

theorem clockEdge_streaming {x : PinInput} (hrst : x.rst = false) (s : State) (y : Sample) (rest : List Sample) :
    clockEdge { block := s, phase := streamPhase (y :: rest) } x =
      .next { block := s, phase := streamPhase (if x.sReady then rest else y :: rest) } := by
  cases h : x.sReady <;> simp [clockEdge, streamPhase, hrst, h]

theorem sampleTransfer_streaming {x : PinInput} (hrst : x.rst = false) (s : State) (y : Sample) (rest : List Sample) :
    sampleTransfer { block := s, phase := streamPhase (y :: rest) } x =
      if x.sReady then some (y, rest.isEmpty) else none := by
  simp [sampleTransfer, samplePins, streamPhase, hrst]

theorem sampleTransfer_idle (x : PinInput) (s : State) : sampleTransfer { block := s, phase := .idle } x = none :=
  ite_self none

/-- Settles O54: the three edges are the rules of the idle, the working and the responding phase. -/
theorem pinsRealiseTheStep : Obligations.PinsRealiseTheStep := by
  intro s t r x y z hx hy hz hvalid hdone hready hstep hr
  exact ⟨_, _, clockEdge_idle_of_transfer hx hvalid s, rfl, rfl, clockEdge_working_of_done hy hdone hstep hr, rfl, rfl,
    rfl, clockEdge_responding_of_ready hz hready t x.opWord r⟩

/-- Settles O55: only the idle phase reads the operation pins. -/
theorem busyBlockIgnoresTheOperationPins : Obligations.BusyBlockIgnoresTheOperationPins := by
  rintro ⟨s, phase⟩ x v w a hbusy
  cases phase with
  | idle => simp [opReady] at hbusy
  | working w' a' => rfl
  | responding w' r => rfl
  | streaming y rest => rfl

/-- Settles O57: `rst` is looked at before the phase. -/
theorem pinResetAbandonsTheOperation : Obligations.PinResetAbandonsTheOperation := by
  intro p x hrst
  have hnone : sampleTransfer p x = none := by simp [sampleTransfer, hrst]
  exact ⟨hnone, _, clockEdge_of_rst hrst p, rfl, rfl, rfl, rfl⟩

/-- Settles O56: the only phases that look at the word are those from its transfer to its response. -/
theorem statusPinsShowTheState : Obligations.StatusPinsShowTheState := by
  intro s w a r x rest stCode
  have hcode : s.st.code = stCode := by
    simp only [stCode]
    cases s.st <;> rfl
  have hne : ∀ st : SessionState, st.code ≠ 2 := by
    intro st
    cases st <;> decide
  exact ⟨hcode ▸ hne s.st, hcode, hcode, fun h => ⟨if_pos h, if_pos h⟩,
    fun h => ⟨(if_neg h).trans hcode, (if_neg h).trans hcode⟩⟩

/-! ### The sample channel over many edges (R63) -/

theorem runPins_cons {p q e : PinState} {x : PinInput} {xs : List PinInput} {out : List (Sample × Bool)}
    (hedge : clockEdge p x = .next q) (hrest : runPins q xs = .next (e, out)) :
    runPins p (x :: xs) = .next (e, (sampleTransfer p x).toList ++ out) := by
  simp only [runPins, hedge, hrest]

/-- With the operation pins at rest an idle block stays idle. -/
theorem runPins_idle (s : State) {xs : List PinInput} (hxs : ∀ x ∈ xs, x.rst = false ∧ x.opValid = false) :
    runPins { block := s, phase := .idle } xs = .next ({ block := s, phase := .idle }, []) := by
  induction xs with
  | nil => rfl
  | cons x xs ih =>
    obtain ⟨hrst, hvalid⟩ := hxs x List.mem_cons_self
    have hrest := ih fun y hy => hxs y (List.mem_cons_of_mem x hy)
    rw [runPins_cons (clockEdge_idle_of_no_transfer hrst hvalid s) hrest, sampleTransfer_idle]
    rfl

/-- The consumer takes one sample on each edge with `s_ready`, and the others are stalls. -/
theorem runPins_streamPhase (s : State) {xs : List PinInput} (hxs : ∀ x ∈ xs, x.rst = false ∧ x.opValid = false)
    {b : List Sample} (hcount : (xs.countP fun x => x.sReady) = b.length) :
    runPins { block := s, phase := streamPhase b } xs = .next ({ block := s, phase := .idle }, asStream b) := by
  induction xs generalizing b with
  | nil =>
    obtain rfl : b = [] := List.length_eq_zero_iff.mp hcount.symm
    rfl
  | cons x xs ih =>
    cases b with
    | nil => exact runPins_idle s hxs
    | cons y rest =>
      have hrst := (hxs x List.mem_cons_self).1
      have ih := @ih fun z hz => hxs z (List.mem_cons_of_mem x hz)
      cases hready : x.sReady with
      | true =>
        have hrest : (xs.countP fun x => x.sReady) = rest.length := by simpa [hready] using hcount
        rw [runPins_cons (clockEdge_streaming hrst s y rest) (by simpa [hready] using ih hrest),
          sampleTransfer_streaming hrst, hready]
        rfl
      | false =>
        have hsame : (xs.countP fun x => x.sReady) = (y :: rest).length := by simpa [hready] using hcount
        rw [runPins_cons (clockEdge_streaming hrst s y rest) (by simpa [hready] using ih hsame),
          sampleTransfer_streaming hrst, hready]
        rfl

theorem asStream_map_fst (b : List Sample) : (asStream b).map Prod.fst = b := by
  induction b with
  | nil => rfl
  | cons x rest ih => rw [asStream, List.map_cons, ih]

theorem asStream_getElem?_snd {b : List Sample} {i : Nat} (hi : i < b.length) :
    (asStream b)[i]?.map Prod.snd = some (decide (i + 1 = b.length)) := by
  induction b generalizing i with
  | nil => simp at hi
  | cons x rest ih =>
    cases i with
    | zero => cases rest <;> simp [asStream]
    | succ i =>
      have hi' : i < rest.length := by simpa using hi
      simpa [asStream] using ih hi'

/-- Settles O53. -/
theorem sampleChannelCarriesTheBuffer : Obligations.SampleChannelCarriesTheBuffer :=
  fun b s _ hxs hcount => ⟨runPins_streamPhase s hxs hcount, asStream_map_fst b, fun _ => asStream_getElem?_snd⟩

end Sys2Proof.Machine
end

