-- ==== Sys2Proof/Proofs/Listing.lean ====
section
/-! Reading back a written line of a listing (30_encoding.md R71): how a line falls into words, and what the words of
each operation say. -/

namespace Sys2Proof.Machine

/-! ### The words of a line -/

/-- A word that stays whole wherever it stands in a line: not empty, without a blank or a comment sign. -/
def isWord (w : List Char) : Bool := w ≠ [] && w.all fun c => c ≠ ' ' && c ≠ ';'

theorem isWord_iff {w : List Char} : isWord w = true ↔ w ≠ [] ∧ ∀ c ∈ w, c ≠ ' ' ∧ c ≠ ';' := by
  simp [isWord]

/-- The words of a text without a comment. -/
def textWords (text : List Char) : List (List Char) := (splitWords text).filter (· ≠ [])

theorem lineWords_of_comment {text : List Char} (h : ∀ c ∈ text, c ≠ ';') (comment : List Char) :
    lineWords (text ++ ';' :: comment) = textWords text := by
  have hstrip : stripComment (text ++ ';' :: comment) = text := by
    rw [stripComment, List.takeWhile_append_of_pos (by simpa using h)]
    simp
  rw [lineWords, hstrip, textWords]

theorem splitWords_blank (text : List Char) : splitWords (' ' :: text) = [] :: splitWords text := rfl

@[simp] theorem textWords_blank (text : List Char) : textWords (' ' :: text) = textWords text := by
  simp [textWords, splitWords_blank]

@[simp] theorem textWords_blanks (m : Nat) (text : List Char) :
    textWords (List.replicate m ' ' ++ text) = textWords text := by
  induction m with
  | zero => rfl
  | succ m ih => rw [List.replicate_succ, List.cons_append, textWords_blank, ih]

/-- The text before the first blank grows by what is written in front of it. -/
theorem splitWords_append {w text v : List Char} {vs : List (List Char)} (hw : ∀ c ∈ w, c ≠ ' ')
    (h : splitWords text = v :: vs) : splitWords (w ++ text) = (w ++ v) :: vs := by
  induction w with
  | nil => exact h
  | cons c w ih =>
    have hc : c ≠ ' ' := hw c List.mem_cons_self
    have ih := ih fun d hd => hw d (List.mem_cons_of_mem c hd)
    simp [splitWords, hc, ih]

theorem textWords_word {w : List Char} (hw : isWord w = true) : textWords w = [w] := by
  obtain ⟨hne, hplain⟩ := isWord_iff.mp hw
  have hsplit : splitWords (w ++ []) = [w ++ []] := splitWords_append (fun c hc => (hplain c hc).1) rfl
  rw [List.append_nil] at hsplit
  simp [textWords, hsplit, hne]

theorem textWords_word_blank {w : List Char} (hw : isWord w = true) (text : List Char) :
    textWords (w ++ ' ' :: text) = w :: textWords text := by
  obtain ⟨hne, hplain⟩ := isWord_iff.mp hw
  have hsplit : splitWords (w ++ ' ' :: text) = (w ++ []) :: splitWords text :=
    splitWords_append (fun c hc => (hplain c hc).1) (splitWords_blank text)
  simp [textWords, hsplit, hne]

theorem textWords_word_blanks {w : List Char} (hw : isWord w = true) (n : Nat) :
    textWords (w ++ List.replicate n ' ') = [w] := by
  cases n with
  | zero => simpa using textWords_word hw
  | succ n =>
    have hblanks : textWords (List.replicate n ' ' ++ []) = [] := textWords_blanks n []
    rw [List.replicate_succ, textWords_word_blank hw]
    simpa using hblanks

section Surrounded

variable (m n : Nat) (comment : List Char)

theorem lineWords_single {w : List Char} (hw : isWord w = true) :
    lineWords (List.replicate m ' ' ++ w ++ List.replicate n ' ' ++ ';' :: comment) = [w] := by
  rw [lineWords_of_comment, List.append_assoc, textWords_blanks, textWords_word_blanks hw]
  intro c hc
  simp only [List.mem_append, List.mem_replicate] at hc
  rcases hc with (⟨-, rfl⟩ | hc) | ⟨-, rfl⟩
  · decide
  · exact ((isWord_iff.mp hw).2 c hc).2
  · decide

theorem lineWords_pair {w x : List Char} (hw : isWord w = true) (hx : isWord x = true) :
    lineWords (List.replicate m ' ' ++ (w ++ ' ' :: x) ++ List.replicate n ' ' ++ ';' :: comment) = [w, x] := by
  rw [lineWords_of_comment, List.append_assoc, textWords_blanks, List.append_assoc, List.cons_append,
    textWords_word_blank hw, textWords_word_blanks hx]
  intro c hc
  simp only [List.mem_append, List.mem_cons, List.mem_replicate] at hc
  rcases hc with (⟨-, rfl⟩ | hc | rfl | hc) | ⟨-, rfl⟩
  · decide
  · exact ((isWord_iff.mp hw).2 c hc).2
  · decide
  · exact ((isWord_iff.mp hx).2 c hc).2
  · decide

theorem readLine_single {w : List Char} (hw : isWord w = true) :
    readLine (List.replicate m ' ' ++ w ++ List.replicate n ' ' ++ ';' :: comment) = readSingle w := by
  simp only [readLine, lineWords_single m n comment hw]

theorem readLine_pair {w x : List Char} (hw : isWord w = true) (hx : isWord x = true) :
    readLine (List.replicate m ' ' ++ (w ++ ' ' :: x) ++ List.replicate n ' ' ++ ';' :: comment) = readPair w x := by
  simp only [readLine, lineWords_pair m n comment hw hx]

end Surrounded

/-! ### The operand of `BIND` -/

theorem readQuoted_written {a : List Digit} (ha : allBits a = true) :
    readQuoted (a.map writeDigit ++ [quoteMark]) = some a := by
  induction a with
  | nil => decide
  | cons d a ih =>
    simp only [allBits_cons, Bool.and_eq_true, isBit_iff] at ha
    obtain ⟨hd, ha⟩ := ha
    have hread : readDigit (writeDigit d) = some d := by rcases hd with rfl | rfl <;> decide
    have hquote : writeDigit d ≠ quoteMark := by rcases hd with rfl | rfl <;> decide
    simp [readQuoted, hquote, hread, ih ha]

/-- The operand as it is written. -/
def quoted (a : List Digit) : List Char := quoteMark :: (a.map writeDigit ++ [quoteMark])

theorem readAddress_quoted {a : List Digit} (ha : allBits a = true) : readAddress (quoted a) = some a := by
  rw [quoted, readAddress, if_pos rfl, readQuoted_written ha]

theorem isWord_quoted (a : List Digit) : isWord (quoted a) = true := by
  have hquote : quoteMark ≠ ' ' ∧ quoteMark ≠ ';' := by decide
  refine isWord_iff.mpr ⟨List.cons_ne_nil _ _, fun c hc => ?_⟩
  simp only [quoted, List.mem_cons, List.mem_append, List.mem_map, List.not_mem_nil, or_false] at hc
  rcases hc with rfl | ⟨d, -, rfl⟩ | rfl
  · exact hquote
  · unfold writeDigit
    split <;> decide
  · exact hquote

/-! ### Every operation -/

section Written

variable {line : List Char} {i : Instr}

/-- A line that is one word. -/
theorem readLine_of_single {w : List Char} (hline : some w = some line) (hw : isWord w = true)
    (hi : readSingle w = some (.operation i)) (m n : Nat) (comment : List Char) :
    readLine (List.replicate m ' ' ++ line ++ List.replicate n ' ' ++ ';' :: comment) = some (.operation i) := by
  obtain rfl := Option.some.inj hline
  rw [readLine_single m n comment hw, hi]

/-- A line that is `ENCODE` and a command. -/
theorem readLine_of_encode {x : List Char} (hline : some ("ENCODE".toList ++ ' ' :: x) = some line)
    (hx : isWord x = true) (hi : readCommand x = some i) (m n : Nat) (comment : List Char) :
    readLine (List.replicate m ' ' ++ line ++ List.replicate n ' ' ++ ';' :: comment) = some (.operation i) := by
  obtain rfl := Option.some.inj hline
  have hencode : isWord "ENCODE".toList = true := by decide
  rw [readLine_pair m n comment hencode hx, readPair, if_neg (by decide), if_pos rfl, hi]
  rfl

/-- A line that is `BIND` and an operand of bits. -/
theorem readLine_of_bind {a : List Digit} (hline : some ("BIND".toList ++ ' ' :: quoted a) = some line)
    (ha : allBits a = true) (m n : Nat) (comment : List Char) :
    readLine (List.replicate m ' ' ++ line ++ List.replicate n ' ' ++ ';' :: comment) =
      some (.operation (.bind 0 a)) := by
  obtain rfl := Option.some.inj hline
  have hbind : isWord "BIND".toList = true := by decide
  rw [readLine_pair m n comment hbind (isWord_quoted a), readPair, if_pos rfl, readAddress_quoted ha]
  rfl

end Written

/-- Settles O58: a written line is one word or two, and the reader knows the words of every operation that has a
listing. -/
theorem listingReadsBack : Obligations.ListingReadsBack := by
  intro i n m line comment hline hbits
  cases i with
  | bind c a => exact readLine_of_bind hline (hbits c a rfl) m n comment
  | encodePwr => exact readLine_of_encode (x := "PowerToggle".toList) hline (by decide) (by decide) m n comment
  | encodeFan0 => exact readLine_of_encode (x := "FanSpeed0".toList) hline (by decide) (by decide) m n comment
  | encodeFan1 => exact readLine_of_encode (x := "FanSpeed1".toList) hline (by decide) (by decide) m n comment
  | encodeFan2 => exact readLine_of_encode (x := "FanSpeed2".toList) hline (by decide) (by decide) m n comment
  | encodeFan3 => exact readLine_of_encode (x := "FanSpeed3".toList) hline (by decide) (by decide) m n comment
  | encodePair => exact readLine_of_encode (x := "Pair".toList) hline (by decide) (by decide) m n comment
  | encodeRsvd6 => exact readLine_of_single hline (by decide) (by decide) m n comment
  | encodeRsvd7 => exact readLine_of_single hline (by decide) (by decide) m n comment
  | take c => exact readLine_of_single (i := .take 0) hline (by decide) (by decide) m n comment
  | illegal c => cases hline

end Sys2Proof.Machine
end
